-- ==== Sys2Proof/Word.lean ====
section
/-! DEFINITION. The fixed-width value types of the spec (00_scope.md R7, R10): u8, u32, u64 and Addr. -/

namespace Sys2Proof

/-- `u8`: one byte of host memory, of a message or of a digest. -/
abbrev Byte := BitVec 8

/-- `u32`: a hash word, schedule word, round constant, command word, STATUS or FCMD. -/
abbrev Word := BitVec 32

/-- `u64`: LEN, and the bit counter `tbl`. -/
abbrev U64 := BitVec 64

/-- `Addr`: an unsigned integer of ADDR_WIDTH bits, 1 ≤ ADDR_WIDTH ≤ 64 (R7), carried in the widest width the spec
allows; that an address has no bit at or above ADDR_WIDTH is `addrFits` (WellFormed.lean). -/
abbrev Addr := BitVec 64

/-- The hash state `H[0..7]` (R18). -/
abbrev Hash := Vector Word 8

/-- A 64-byte block, and a slot's pending-byte buffer (R7, R14, R19). -/
abbrev Block := Vector Byte 64

end Sys2Proof
end

