-- ==== Sys2Proof/Machine/ByteOrder.lean ====
section
/-! DEFINITION. The conversions between bytes and words (00_scope.md R10), the only byte orders in the hardware
(20_memory.md R39–R42), all big-endian. -/

namespace Sys2Proof.Machine

/-- `be32(b0,b1,b2,b3)` (R10): `b0` is the most significant byte. -/
def be32 (b0 b1 b2 b3 : Byte) : Word :=
  (b0.setWidth 32 <<< 24) ||| (b1.setWidth 32 <<< 16) ||| (b2.setWidth 32 <<< 8) ||| b3.setWidth 32

/-- `bytes_be32(w) = (w[31:24], w[23:16], w[15:8], w[7:0])` (R10). -/
def bytesBe32 (w : Word) : List Byte :=
  [w.extractLsb' 24 8, w.extractLsb' 16 8, w.extractLsb' 8 8, w.extractLsb' 0 8]

/-- `bytes_be64(v)`: `v[63:56]` first, `v[7:0]` last (R10). -/
def bytesBe64 (v : U64) : List Byte :=
  [v.extractLsb' 56 8, v.extractLsb' 48 8, v.extractLsb' 40 8, v.extractLsb' 32 8,
   v.extractLsb' 24 8, v.extractLsb' 16 8, v.extractLsb' 8 8, v.extractLsb' 0 8]

/-- `0x00^k` (R10). -/
def zeroBytes (k : Nat) : List Byte := List.replicate k 0

/-- The 64 bytes of a list that has 64. Every caller gives it exactly 64 (a shorter list would be filled with zeros and
a longer one cut). -/
def blockOfBytes (l : List Byte) : Block := ⟨((l ++ zeroBytes 64).take 64).toArray, by simp [zeroBytes]⟩

/-- The whole 64-byte blocks of a byte string, in order; a rest of fewer than 64 bytes is in none of them. -/
def blocksOf (l : List Byte) : List Block :=
  (List.range (l.length / 64)).map fun i => blockOfBytes ((l.drop (64 * i)).take 64)

/-- The bytes of the words of a hash state, words in index order, each big-endian (R41): the digest. -/
def digestBytes (h : Hash) : List Byte :=
  bytesBe32 h[0] ++ bytesBe32 h[1] ++ bytesBe32 h[2] ++ bytesBe32 h[3] ++
  bytesBe32 h[4] ++ bytesBe32 h[5] ++ bytesBe32 h[6] ++ bytesBe32 h[7]

end Sys2Proof.Machine
end

