-- ==== Sys2Proof/Machine/Compression.lean ====
section
/-! DEFINITION. The compression function, its message schedule and its rounds (42_compression.md), pure functions that
no command word selects (R94). `+` on `Word` is addition modulo 2^32 (R82). The formulas the spec marks as FIPS 180-4
are taken as it gives them (log 9). -/

namespace Sys2Proof.Machine

/-- `ROTR(x, n)`, 1 ≤ n ≤ 31 (R83). -/
def rotr (x : Word) (n : Nat) : Word := (x >>> n) ||| (x <<< (32 - n))

/-- `SHR(x, n)` (R84). -/
def shr (x : Word) (n : Nat) : Word := x >>> n

/-- The choice function (R85). -/
def ch (x y z : Word) : Word := (x &&& y) ^^^ (~~~x &&& z)

/-- The majority function (R86). -/
def maj (x y z : Word) : Word := (x &&& y) ^^^ (x &&& z) ^^^ (y &&& z)

/-- `Σ0` (R87). -/
def bigSigma0 (x : Word) : Word := rotr x 2 ^^^ rotr x 13 ^^^ rotr x 22

/-- `Σ1` (R88). -/
def bigSigma1 (x : Word) : Word := rotr x 6 ^^^ rotr x 11 ^^^ rotr x 25

/-- `σ0` (R89). -/
def smallSigma0 (x : Word) : Word := rotr x 7 ^^^ rotr x 18 ^^^ shr x 3

/-- `σ1` (R90). -/
def smallSigma1 (x : Word) : Word := rotr x 17 ^^^ rotr x 19 ^^^ shr x 10

/-- Bytes read big-endian four at a time (R39, R91). -/
def wordsOfBytes : List Byte → List Word
  | b0 :: b1 :: b2 :: b3 :: rest => be32 b0 b1 b2 b3 :: wordsOfBytes rest
  | _ => []

/-- `W[t]` for t ≥ 16, from the list of `W[0 .. t−1]` (R91). -/
def nextScheduleWord (w : List Word) : Word :=
  let t := w.length
  smallSigma1 (w.getD (t - 2) 0) + w.getD (t - 7) 0 + smallSigma0 (w.getD (t - 15) 0) + w.getD (t - 16) 0

/-- `n` more words on a schedule begun (R91). -/
def extendSchedule : Nat → List Word → List Word
  | 0, w => w
  | n + 1, w => extendSchedule n (w ++ [nextScheduleWord w])

/-- `Schedule(B)`: `W[0..63]` (R91). -/
def schedule (b : Block) : List Word := extendSchedule 48 (wordsOfBytes b.toList)

/-- The eight working variables (R92). -/
structure Working where
  a : Word
  b : Word
  c : Word
  d : Word
  e : Word
  f : Word
  g : Word
  h : Word
deriving DecidableEq, Repr

/-- `T1` of a round with constant `k` and schedule word `w` (R92). -/
def roundT1 (k w : Word) (v : Working) : Word := v.h + bigSigma1 v.e + ch v.e v.f v.g + k + w

/-- `T2` of a round (R92). -/
def roundT2 (v : Working) : Word := bigSigma0 v.a + maj v.a v.b v.c

/-- `Round` with constant `k = K[t]` and schedule word `w = W[t]`: eight simultaneous assignments (R92). -/
def compressionRound (k w : Word) (v : Working) : Working :=
  { a := roundT1 k w v + roundT2 v, b := v.a, c := v.b, d := v.c
    e := v.d + roundT1 k w v, f := v.e, g := v.f, h := v.g }

/-- `(a..h) <- (H[0]..H[7])` (R93). -/
def workingOf (h : Hash) : Working :=
  { a := h[0], b := h[1], c := h[2], d := h[3], e := h[4], f := h[5], g := h[6], h := h[7] }

/-- The 64 rounds in order, round t with K[t] and W[t] (R92, R93). -/
def runRounds (w : List Word) (v : Working) : Working :=
  (roundConstants.zip w).foldl (fun v kw => compressionRound kw.1 kw.2 v) v

/-- The working variables added into the hash words, modulo 2^32 (R93). -/
def addWorking (h : Hash) (v : Working) : Hash :=
  #v[h[0] + v.a, h[1] + v.b, h[2] + v.c, h[3] + v.d, h[4] + v.e, h[5] + v.f, h[6] + v.g, h[7] + v.h]

/-- `COMPRESS(H, B)` (R93). -/
def compress (h : Hash) (b : Block) : Hash := addWorking h (runRounds (schedule b) (workingOf h))

/-- COMPRESS over blocks in stream order (R79). -/
def compressAll (h : Hash) (bs : List Block) : Hash := bs.foldl compress h

end Sys2Proof.Machine
end

