-- ==== Sys2Proof/Machine/Digest.lean ====
section
/-! DEFINITION. Padding and the SHA-256 function of a byte string (41_context_commands.md R75–R79), and the one-block
digest of the one-shot commands (43_one_shot.md R95). -/

namespace Sys2Proof.Machine

/-- The last block or blocks FINISH compresses: `pending` is `buf[0..n−1]`, `bits` is the bit count before padding.
Fewer than 56 pending bytes give one block, 56 or more give two (R75, R76). -/
def finalBlocks (pending : List Byte) (bits : U64) : List Block :=
  let b := pending ++ [0x80]
  if b.length > 56 then
    [blockOfBytes (b ++ zeroBytes (64 - b.length)), blockOfBytes (zeroBytes 56 ++ bytesBe64 bits)]
  else
    [blockOfBytes (b ++ zeroBytes (56 - b.length) ++ bytesBe64 bits)]

/-- `Pad(m)` (R78). -/
def pad (m : List Byte) : List Byte :=
  m ++ [0x80] ++ zeroBytes ((119 - m.length % 64) % 64) ++ bytesBe64 (BitVec.ofNat 64 (8 * m.length))

/-- `SHA256(m)` (R79). -/
def sha256 (m : List Byte) : List Byte := digestBytes (compressAll initialHash (blocksOf (pad m)))

/-- The digest of a 32-byte message by its one padded block, `m ‖ 0x80 ‖ 0x00^23 ‖ bytes_be64(256)` (R95). -/
def oneBlockDigest (m : List Byte) : List Byte :=
  digestBytes (compress initialHash (blockOfBytes (m ++ [0x80] ++ zeroBytes 23 ++ bytesBe64 256)))

end Sys2Proof.Machine
end

