-- ==== Sys2Proof/Config.lean ====
section
/-! DEFINITION. What an implementation fixes (the three OPEN parameters of 00_scope.md R7 and R8) and the free values
(what the spec says holds no value). -/

namespace Sys2Proof

/-- The kind of an engine access to host memory (20_memory.md R37). -/
inductive AccessKind where
  | read
  | write
deriving DecidableEq, Repr

/-- A run of addresses `lo ≤ a < hi` at which the platform refuses engine accesses of one kind. -/
structure Region where
  kind : AccessKind
  lo : Nat
  hi : Nat
deriving DecidableEq, Repr

/-- Whether the region refuses an access of kind `k` to the byte at `a`. -/
def Region.covers (r : Region) (k : AccessKind) (a : Nat) : Bool :=
  r.kind == k && decide (r.lo ≤ a) && decide (a < r.hi)

/-- The three OPEN parameters (R7, R8). `Admit` is held as data, the list of what it refuses: an address space has
finitely many bytes, so every predicate on (address, kind) is such a list (`exists_refused_of_predicate`).
DESIGN CHOICE (log 1). -/
structure Config where
  /-- ADDR_WIDTH -/
  addrWidth : Nat
  /-- NUM_CONTEXTS -/
  numContexts : Nat
  /-- the complement of Admit -/
  refused : List Region
deriving DecidableEq, Repr

/-- The ranges R7 allows. -/
abbrev Config.Valid (c : Config) : Prop :=
  1 ≤ c.addrWidth ∧ c.addrWidth ≤ 64 ∧ 1 ≤ c.numContexts ∧ c.numContexts ≤ 16

/-- The largest machine the spec allows: every legal command word names a slot that exists, every address exists and
is admitted. `State.reset` is its reset state. DESIGN CHOICE (log 1): the spec leaves the three parameters open. -/
def Config.largest : Config := { addrWidth := 64, numContexts := 16, refused := [] }

/-- Free value: `H` of a slot that holds no value (41_context_commands.md R77, 70_reset_and_hazards.md R116). Log 4. -/
opaque Config.freeHash : Nat → Hash

/-- Free value: `buf` of a slot that holds no value (R77, R116). Log 4. -/
opaque Config.freeBuffer : Nat → Block

/-- Free value: `blen` of a slot that holds no value, within the range 0..64 that R20 gives the field. Log 4. -/
opaque Config.freeLength : Nat → Fin 65

/-- Free value: `tbl` of a slot that holds no value (R77, R116). Log 4. -/
opaque Config.freeBitCount : Nat → U64

end Sys2Proof
end

