-- ==== Sys2Proof/Syntax.lean ====
section
/-! DEFINITION. The commands (30_encoding.md R56, R58, R64) and the transactions a host can issue (R26, R50, R56, R116). -/

namespace Sys2Proof

/-- A command as the host delivers it: four values, all together (R56). -/
structure Command where
  /-- CW -/
  cw : Word
  /-- SRC -/
  src : Addr
  /-- DST -/
  dst : Addr
  /-- LEN -/
  len : U64
deriving DecidableEq, Repr

/-- The five commands of spec/opcode_table.json, each with the operands it reads (R58). `c` is the CTX field, 4 bits. -/
inductive Instr where
  /-- INIT (R72): initialise slot `c`. -/
  | init (c : BitVec 4)
  /-- APPEND (R73): absorb `len` bytes at `src` into slot `c`. -/
  | append (c : BitVec 4) (src : Addr) (len : U64)
  /-- FINISH (R75): pad, and write the digest of slot `c` at `dst`. -/
  | finish (c : BitVec 4) (dst : Addr)
  /-- DIGEST (R95): hash the 32 bytes at `src`, digest to `dst`. -/
  | digest (src dst : Addr)
  /-- SELF_DIGEST (R96): replace the 32 bytes at `src` by their digest. -/
  | selfDigest (src : Addr)
deriving DecidableEq, Repr

/-- Everything a host (or, for `reset`, the platform) can do to the engine and its memory, one constructor each. One
total order of these is the machine's whole input (R50, R52). A host's own access to host memory is one byte here; R42
lets a host access be wider, and no rule gives its width or says that it is one transaction: a wider access is one
transaction for each of its bytes, in any order and with anything between them. DESIGN CHOICE (log 14). -/
inductive Transaction where
  /-- a command (R56) -/
  | command (c : Command)
  /-- READSTATUS (R26) -/
  | readStatus
  /-- RESET (R116) -/
  | reset
  /-- a host reads one byte of host memory (R50; one byte: log 14) -/
  | hostRead (a : Addr)
  /-- a host writes one byte of host memory (R50; one byte: log 14) -/
  | hostWrite (a : Addr) (b : Byte)
deriving DecidableEq, Repr

end Sys2Proof
end

