-- ==== Sys2Proof/WellFormed.lean ====
section
/-! DEFINITION. Which commands and transactions exist in an ADDR_WIDTH-bit machine: an address operand is an `Addr`, an
unsigned integer of ADDR_WIDTH bits (00_scope.md R10, 30_encoding.md R56). -/

namespace Sys2Proof

/-- The address has no bit at or above ADDR_WIDTH (R10, R36: addresses 0 .. 2^ADDR_WIDTH − 1). -/
def addrFits (addrWidth : Nat) (a : Addr) : Bool := decide (a.toNat < 2 ^ addrWidth)

/-- Every address operand the command reads is an `Addr` of this machine. CTX, a 4-bit field, and LEN, a u64, have no
further condition: CTX ≥ NUM_CONTEXTS is a legal word that faults (R59). -/
def Instr.wellFormed (addrWidth : Nat) : Instr → Bool
  | .init _ => true
  | .append _ src _ => addrFits addrWidth src
  | .finish _ dst => addrFits addrWidth dst
  | .digest src dst => addrFits addrWidth src && addrFits addrWidth dst
  | .selfDigest src => addrFits addrWidth src

/-- SRC and DST are both delivered as `Addr`, read or ignored (R56). -/
def Command.fits (addrWidth : Nat) (c : Command) : Bool := addrFits addrWidth c.src && addrFits addrWidth c.dst

/-- The transaction exists in this machine: every address in it is an address of the address space (R36, R56). -/
def Transaction.fits (addrWidth : Nat) : Transaction → Bool
  | .command c => c.fits addrWidth
  | .readStatus => true
  | .reset => true
  | .hostRead a => addrFits addrWidth a
  | .hostWrite a _ => addrFits addrWidth a

end Sys2Proof
end

