-- ==== Sys2Proof/Decode.lean ====
section
/-! DEFINITION. Decoding of command words (30_encoding.md R57–R61), total and rejecting by name, and after it the
encoder (R63, R64). A command is delivered as values, not as memory bytes, and has no byte order (20_memory.md R42). -/

namespace Sys2Proof

/-- `OP = CW[3:0]` (R57). -/
def opField (cw : Word) : BitVec 4 := cw.extractLsb' 0 4

/-- `CTX = CW[7:4]` (R57). -/
def ctxField (cw : Word) : BitVec 4 := cw.extractLsb' 4 4

/-- `RSV = CW[31:8]` (R57). -/
def rsvField (cw : Word) : BitVec 24 := cw.extractLsb' 8 24

/-- Why a command word is ILLEGAL (R59, R60). All three raise the one fault ILLEGAL_COMMAND (R99). -/
inductive IllegalWord where
  /-- RSV ≠ 0 -/
  | reservedBits
  /-- OP is 0x0 or 0x6..0xF -/
  | reservedOpcode
  /-- OP is DIGEST or SELF_DIGEST and CTX ≠ 0 -/
  | nonzeroContext
deriving DecidableEq, Repr

/-- What a command decodes to. -/
inductive Decoded where
  | legal (i : Instr)
  | illegal (why : IllegalWord)
deriving DecidableEq, Repr

/-- Decoding, total over all command words (R59). SRC, DST and LEN play no part in it; the operands the command does
not name are dropped here, so nothing later can read them (R61). -/
def decode (c : Command) : Decoded :=
  if rsvField c.cw ≠ 0 then .illegal .reservedBits
  else match (opField c.cw).toNat with
    | 1 => .legal (.init (ctxField c.cw))
    | 2 => .legal (.append (ctxField c.cw) c.src c.len)
    | 3 => .legal (.finish (ctxField c.cw) c.dst)
    | 4 => if ctxField c.cw = 0 then .legal (.digest c.src c.dst) else .illegal .nonzeroContext
    | 5 => if ctxField c.cw = 0 then .legal (.selfDigest c.src) else .illegal .nonzeroContext
    | _ => .illegal .reservedOpcode

/-- The command word of each legal command, by the formulas of R63. -/
def encodeWord : Instr → Word
  | .init c => 0x00000001#32 ||| (c.setWidth 32 <<< 4)
  | .append c _ _ => 0x00000002#32 ||| (c.setWidth 32 <<< 4)
  | .finish c _ => 0x00000003#32 ||| (c.setWidth 32 <<< 4)
  | .digest _ _ => 0x00000004#32
  | .selfDigest _ => 0x00000005#32

/-- The command a host issues for an instruction, ignored operands 0 (R64). -/
def encode (i : Instr) : Command :=
  match i with
  | .init _ => { cw := encodeWord i, src := 0, dst := 0, len := 0 }
  | .append _ src len => { cw := encodeWord i, src := src, dst := 0, len := len }
  | .finish _ dst => { cw := encodeWord i, src := 0, dst := dst, len := 0 }
  | .digest src dst => { cw := encodeWord i, src := src, dst := dst, len := 0 }
  | .selfDigest src => { cw := encodeWord i, src := src, dst := 0, len := 0 }

/-- A command from one number: CW at bits 31:0 as spec/opcode_table.json numbers it, then SRC, DST and LEN in 64 bits
each. The spec delivers the operands beside the word and gives them no bit numbers: DESIGN CHOICE (log 10). -/
def commandOfNat (w : Nat) : Command :=
  { cw := BitVec.ofNat 32 w
    src := BitVec.ofNat 64 (w / 2 ^ 32)
    dst := BitVec.ofNat 64 (w / 2 ^ 96)
    len := BitVec.ofNat 64 (w / 2 ^ 160) }

/-- The instruction the decoder reads from a table row's bits, every bit at or above `nbits` being 0. -/
def decodeTableWord (nbits w : Nat) : Option Instr :=
  match decode (commandOfNat (w % 2 ^ nbits)) with
  | .legal i => some i
  | .illegal _ => none

end Sys2Proof
end

