-- ==== Sys2Proof/Machine/State.lean ====
section
/-! DEFINITION. The state of the engine, its platform and its host memory, as plain data (10_state.md, 20_memory.md),
the reasons a step can stop, and the state after reset (70_reset_and_hazards.md R116, R117). -/

namespace Sys2Proof.Machine

/-- The life-cycle position of a context slot (R17). -/
inductive Phase where
  /-- not initialised since reset -/
  | uninit
  /-- INIT has run and FINISH has not run since -/
  | active
  /-- FINISH has run since the last INIT -/
  | consumed
deriving DecidableEq, Repr

/-- One context slot `ctx[c]` (R16–R21). -/
structure Slot where
  /-- `phase` (R17) -/
  phase : Phase
  /-- `H[0..7]` (R18) -/
  h : Hash
  /-- `buf[0..63]` (R19) -/
  buf : Block
  /-- `blen`, 0..64, and 0..63 at every command boundary (R20) -/
  blen : Nat
  /-- `tbl`, bits appended since the last INIT (R21) -/
  tbl : U64
deriving DecidableEq, Repr

/-- Host memory as the pairs (address, byte) that differ from what an unlisted address reads as, addresses strictly
rising (`Memory.wf` in Ops.lean). -/
abbrev Memory := List Host.Cell

/-- What a host has been answered. -/
inductive Reply where
  /-- the triple (STATUS, FCMD, FADDR) of a ReadStatus (R26) -/
  | status (status fcmd : Word) (faddr : Addr)
  /-- the byte of a host read (R50) -/
  | byte (b : Byte)
deriving DecidableEq, Repr

/-- The whole machine. The parameters of R8 are fields, so that a statement about every state is a statement about
every value of them; no step changes them. NUM_CONTEXTS is the number of slots held (`State.numContexts`).
DESIGN CHOICE (log 1). -/
structure State where
  /-- ADDR_WIDTH (R7, R36) -/
  addrWidth : Nat
  /-- what Admit refuses (R7, R37) -/
  refused : List Region
  /-- `ctx[0 .. NUM_CONTEXTS − 1]` (R16) -/
  slots : List Slot
  /-- STATUS (R23) -/
  status : Word
  /-- FCMD (R24) -/
  fcmd : Word
  /-- FADDR (R25) -/
  faddr : Addr
  /-- host memory (R36) -/
  mem : Memory
  /-- the host transactions still to come, in the one total order of R50 (model's own field, log 5) -/
  inbox : List Transaction
  /-- what the hosts have been answered, oldest first (model's own field, log 6) -/
  replies : List Reply
  /-- how many free values have been drawn (model's own field, log 4) -/
  freeCount : Nat
deriving DecidableEq, Repr

/-- The reasons the machine stops. The spec's own seven faults are none of these: taking one is a next state (R108). -/
inductive Fault where
  /-- Raised by `step` alone, for a transaction with an address that has a bit at or above ADDR_WIDTH. No such
  transaction exists (R36, R56), so nothing a host can do is lost: safe. Log 7. -/
  | noSuchAddress
deriving DecidableEq, Repr

/-- The reasons an instruction has no meaning. -/
inductive Refusal where
  /-- Raised by `exec` for an instruction that has no meaning yet: safe. No arm raises it. -/
  | notModelled (mnemonic : String)
deriving DecidableEq, Repr

/-- A slot right after reset: UNINIT (R116). R117 gives the other fields no value; the model names zero for each:
DESIGN CHOICE (log 2). -/
def Slot.reset : Slot :=
  { phase := .uninit, h := Vector.replicate 8 0, buf := Vector.replicate 64 0, blen := 0, tbl := 0 }

/-- The machine of the given parameters right after reset (R116, R117), with no transaction issued yet. -/
def State.resetOf (c : Config) : State :=
  { addrWidth := c.addrWidth
    refused := c.refused
    slots := List.replicate c.numContexts Slot.reset
    status := 0
    fcmd := 0
    faddr := 0
    mem := []
    inbox := []
    replies := []
    freeCount := 0 }

/-- The reset state of the largest machine the spec allows (log 1). -/
def State.reset : State := State.resetOf Config.largest

end Sys2Proof.Machine
end

