-- ==== Sys2Proof/Machine/Flags.lean ====
section
/-! DEFINITION. The status bits of the engine: STATUS and its fields (10_state.md R23), the fault causes
(60_exceptions.md R98). The engine has no other flags (R29); the slot phases are fields of State. -/

namespace Sys2Proof.Machine

/-- The fault causes (R98). -/
inductive Cause where
  /-- a word that decodes as ILLEGAL (R99) -/
  | illegalCommand
  /-- CTX ≥ NUM_CONTEXTS (R100) -/
  | badContext
  /-- APPEND or FINISH on a slot in UNINIT (R101) -/
  | contextUninit
  /-- APPEND or FINISH on a slot in CONSUMED (R102) -/
  | contextConsumed
  /-- APPEND would carry tbl to 2^64 or more (R103) -/
  | lengthOverflow
  /-- a range that wraps (R104) -/
  | addressRange
  /-- a byte Admit refuses (R105) -/
  | memoryFault
deriving DecidableEq, Repr

/-- The codes of R98. -/
def Cause.code : Cause → Word
  | .illegalCommand => 1
  | .badContext => 2
  | .contextUninit => 3
  | .contextConsumed => 4
  | .lengthOverflow => 5
  | .addressRange => 6
  | .memoryFault => 7

/-- STATUS as fault entry writes it: `(cause << 4) | 1` (R108). -/
def faultStatus (c : Cause) : Word := (c.code <<< 4) ||| 1

/-- STATUS.HALTED, bit 0 (R23). -/
def State.halted (s : State) : Bool := s.status.getLsbD 0

/-- STATUS.CAUSE, bits 7:4 (R23). -/
def State.cause (s : State) : BitVec 4 := s.status.extractLsb' 4 4

/-- What a failing check reports: the cause, and what FADDR will hold (R98). -/
structure FaultReport where
  cause : Cause
  faddr : Addr
deriving DecidableEq, Repr

end Sys2Proof.Machine
end

