-- ==== Sys2Proof/Machine/Operands.lean ====
section
/-! DEFINITION. The operand forms: the slot CTX names, and the byte ranges SRC, DST and LEN name, with the checks each
one is subject to (20_memory.md R37, R38; 60_exceptions.md R100–R105). A check answers the report of the fault to raise,
or none. -/

namespace Sys2Proof.Machine

/-- NUM_CONTEXTS: the number of slots the engine holds (R16). -/
def State.numContexts (s : State) : Nat := s.slots.length

/-- The slot a CTX field names, none when CTX ≥ NUM_CONTEXTS (R59, R100). -/
def State.slot? (s : State) (c : BitVec 4) : Option Slot := s.slots[c.toNat]?

/-- Slot `c` rewritten, every other slot untouched (R16). -/
def State.updateSlot (s : State) (c : BitVec 4) (f : Slot → Slot) : State :=
  { s with slots := s.slots.modify c.toNat f }

/-- `Admit(a, k)` (R37). -/
def State.admits (s : State) (k : AccessKind) (a : Nat) : Bool := !s.refused.any (·.covers k a)

/-- The lowest address of `[a, a+n)` that Admit refuses (R37). -/
def State.firstRefused (s : State) (k : AccessKind) (a : Nat) : Nat → Option Nat
  | 0 => none
  | n + 1 => if s.admits k a then s.firstRefused k (a + 1) n else some a

/-- BAD_CONTEXT (R100). -/
def contextFault (c : BitVec 4) (s : State) : Option FaultReport :=
  match s.slot? c with
  | none => some { cause := .badContext, faddr := 0 }
  | some _ => none

/-- The checks APPEND and FINISH make on their slot, in order: BAD_CONTEXT, CONTEXT_UNINIT, CONTEXT_CONSUMED, then
those that `rest` makes of an ACTIVE slot (R100–R102, R106). -/
def activeSlotFault (c : BitVec 4) (s : State) (rest : Slot → Option FaultReport) : Option FaultReport :=
  match s.slot? c with
  | none => some { cause := .badContext, faddr := 0 }
  | some sl =>
    match sl.phase with
    | .uninit => some { cause := .contextUninit, faddr := 0 }
    | .consumed => some { cause := .contextConsumed, faddr := 0 }
    | .active => rest sl

/-- LENGTH_OVERFLOW, on unbounded integers (R103). -/
def lengthFault (len : U64) (sl : Slot) : Option FaultReport :=
  if sl.tbl.toNat + 8 * len.toNat ≥ 2 ^ 64 then some { cause := .lengthOverflow, faddr := 0 } else none

/-- ADDRESS_RANGE for `[a, a+n)`, n ≥ 1, on unbounded integers (R38, R104). -/
def rangeFault (a : Addr) (n : Nat) (s : State) : Option FaultReport :=
  if a.toNat + n > 2 ^ s.addrWidth then some { cause := .addressRange, faddr := a } else none

/-- MEMORY_FAULT for an access of kind `k` to `[a, a+n)` (R37, R105). -/
def admitFault (k : AccessKind) (a : Addr) (n : Nat) (s : State) : Option FaultReport :=
  match s.firstRefused k a.toNat n with
  | some b => some { cause := .memoryFault, faddr := BitVec.ofNat 64 b }
  | none => none

end Sys2Proof.Machine
end

