-- ==== Sys2Proof/Machine/Ops.lean ====
section
/-! DEFINITION. The operations the meanings share: host memory (20_memory.md R36, R47; 00_scope.md R11), fault entry
(60_exceptions.md R108), the common form of every command (R106, R107, R109), and the transactions that are no commands:
ReadStatus (10_state.md R26), RESET (70_reset_and_hazards.md R116), a host's reads and writes (R50). -/

namespace Sys2Proof.Machine

/-- What a byte of host memory that nothing has written reads as. The spec gives host memory no initial contents (R36):
DESIGN CHOICE (log 3). -/
def unlistedByte : Byte := 0

/-- The canonical form: addresses strictly rising, and no entry equal to what an unlisted address reads as. -/
abbrev Memory.wf (m : Memory) : Prop :=
  m.Pairwise (fun x y => x.1 < y.1) ∧ ∀ x ∈ m, x.2 ≠ unlistedByte

/-- The byte at address `a` (R47). -/
def Memory.read : Memory → Nat → Byte
  | [], _ => unlistedByte
  | (k, b) :: m, a => if k = a then b else Memory.read m a

/-- The entry for a byte in front of a memory whose addresses are all higher; none for the unlisted byte. -/
def Memory.place (a : Nat) (b : Byte) (m : Memory) : Memory := if b = unlistedByte then m else (a, b) :: m

/-- Memory with the byte at `a` replaced by `b` and nothing else (R47). -/
def Memory.write : Memory → Nat → Byte → Memory
  | [], a, b => Memory.place a b []
  | (k, v) :: m, a, b =>
    if k < a then (k, v) :: Memory.write m a b
    else if k = a then Memory.place a b m
    else Memory.place a b ((k, v) :: m)

/-- `MemRead(a, n)` (R11): ascending addresses. -/
def readBytes (m : Memory) (a : Nat) : Nat → List Byte
  | 0 => []
  | n + 1 => m.read a :: readBytes m (a + 1) n

/-- `MemWrite(a, n, s)` (R11): ascending addresses. -/
def writeBytes (m : Memory) (a : Nat) : List Byte → Memory
  | [] => m
  | b :: bs => writeBytes (m.write a b) (a + 1) bs

/-- Fault entry for `raise Fault(cause, faddr)` on command word `cw` (R108): taking an exception. Nothing else is saved
and nothing else changes. There is no return from it but RESET (R110). -/
def State.raise (s : State) (cw : Word) (f : FaultReport) : State :=
  { s with status := faultStatus f.cause, fcmd := cw, faddr := f.faddr }

/-- The outcome of every command that decodes (R106, R107, R109): not performed while HALTED; else its first failing
check raises its fault, with FCMD the command word, before any effect; else its effect. -/
def perform (i : Instr) (s : State) (failing : State → Option FaultReport) (effect : State → State) :
    Host.Outcome State Fault Refusal :=
  if s.halted then .next s
  else match failing s with
    | some f => .next (s.raise (encodeWord i) f)
    | none => .next (effect s)

/-- A command whose word is ILLEGAL (R59, R99, R109). -/
def performIllegal (cw : Word) (s : State) : Host.Outcome State Fault Refusal :=
  if s.halted then .next s else .next (s.raise cw { cause := .illegalCommand, faddr := 0 })

/-- A host is answered. -/
def State.answer (s : State) (r : Reply) : State := { s with replies := s.replies ++ [r] }

/-- ReadStatus: the triple, at any time, with no change to the engine (R26). -/
def readStatus (s : State) : State := s.answer (.status s.status s.fcmd s.faddr)

/-- A slot whose H, buf, blen and tbl hold no value (R77, R116): they are the free values number `n`. Log 4. -/
def Slot.empty (p : Phase) (n : Nat) : Slot :=
  { phase := p
    h := Config.freeHash n
    buf := Config.freeBuffer n
    blen := (Config.freeLength n).val
    tbl := Config.freeBitCount n }

/-- RESET (R116): the fault record cleared, every slot UNINIT and holding no value, host memory untouched. -/
def resetEngine (s : State) : State :=
  { s with
    status := 0
    fcmd := 0
    faddr := 0
    slots := s.slots.mapIdx fun i _ => Slot.empty .uninit (s.freeCount + i)
    freeCount := s.freeCount + s.slots.length }

/-- A host reads a byte of host memory (R50). -/
def hostRead (a : Addr) (s : State) : State := s.answer (.byte (s.mem.read a.toNat))

/-- A host writes a byte of host memory (R50). -/
def hostWrite (a : Addr) (b : Byte) (s : State) : State := { s with mem := s.mem.write a.toNat b }

end Sys2Proof.Machine
end

