-- ==== Sys2Proof/Machine/Context.lean ====
section
/-! DEFINITION. The context commands INIT, APPEND and FINISH (41_context_commands.md R72, R73, R75). -/

namespace Sys2Proof.Machine

/-- A slot as INIT leaves it (R72). -/
def Slot.initial : Slot :=
  { phase := .active, h := initialHash, buf := Vector.replicate 64 0, blen := 0, tbl := 0 }

/-- INIT (R72). -/
def execInit (c : BitVec 4) (s : State) : Host.Outcome State Fault Refusal :=
  perform (.init c) s (contextFault c) fun s => s.updateSlot c fun _ => Slot.initial

/-- One turn of APPEND's byte loop (R73). -/
def Slot.absorbByte (sl : Slot) (b : Byte) : Slot :=
  let buf := sl.buf.setIfInBounds sl.blen b
  if sl.blen + 1 = 64 then { sl with h := compress sl.h buf, buf := buf, blen := 0 }
  else { sl with buf := buf, blen := sl.blen + 1 }

/-- APPEND's byte loop, then its bit counter (R73); that the counter cannot wrap has been checked. -/
def Slot.absorb (sl : Slot) (bs : List Byte) : Slot :=
  let sl' := bs.foldl Slot.absorbByte sl
  { sl' with tbl := sl'.tbl + BitVec.ofNat 64 (8 * bs.length) }

/-- APPEND's own checks in the order of R73 and R106; LEN = 0 names no byte, so SRC is then not checked. -/
def appendFault (c : BitVec 4) (src : Addr) (len : U64) (s : State) : Option FaultReport :=
  activeSlotFault c s fun sl =>
    lengthFault len sl <|>
      if len = 0 then none else rangeFault src len.toNat s <|> admitFault .read src len.toNat s

/-- APPEND (R73). -/
def execAppend (c : BitVec 4) (src : Addr) (len : U64) (s : State) : Host.Outcome State Fault Refusal :=
  perform (.append c src len) s (appendFault c src len) fun s =>
    s.updateSlot c fun sl => sl.absorb (readBytes s.mem src.toNat len.toNat)

/-- The hash state after FINISH's last block (R75). -/
def Slot.finalHash (sl : Slot) : Hash := compressAll sl.h (finalBlocks (sl.buf.toList.take sl.blen) sl.tbl)

/-- FINISH's own checks in the order of R75 and R106. -/
def finishFault (c : BitVec 4) (dst : Addr) (s : State) : Option FaultReport :=
  activeSlotFault c s fun _ => rangeFault dst 32 s <|> admitFault .write dst 32 s

/-- FINISH's effect (R75): the digest of slot `c` to host memory, and the slot CONSUMED and holding no value (R77). -/
def finishEffect (c : BitVec 4) (dst : Addr) (s : State) : State :=
  match s.slot? c with
  | none => s
  | some sl =>
    { s.updateSlot c (fun _ => Slot.empty .consumed s.freeCount) with
      mem := writeBytes s.mem dst.toNat (digestBytes sl.finalHash)
      freeCount := s.freeCount + 1 }

/-- FINISH (R75). -/
def execFinish (c : BitVec 4) (dst : Addr) (s : State) : Host.Outcome State Fault Refusal :=
  perform (.finish c dst) s (finishFault c dst) (finishEffect c dst)

end Sys2Proof.Machine
end

