-- ==== Sys2Proof/Machine/OneShot.lean ====
section
/-! DEFINITION. The one-shot commands DIGEST and SELF_DIGEST (43_one_shot.md R95, R96). Both read all 32 input bytes
before any byte is written (20_memory.md R44), and neither reads or writes a slot. -/

namespace Sys2Proof.Machine

/-- DIGEST's checks in the order of R95 and R106. -/
def digestFault (src dst : Addr) (s : State) : Option FaultReport :=
  rangeFault src 32 s <|> rangeFault dst 32 s <|> admitFault .read src 32 s <|> admitFault .write dst 32 s

/-- DIGEST (R95). -/
def execDigest (src dst : Addr) (s : State) : Host.Outcome State Fault Refusal :=
  perform (.digest src dst) s (digestFault src dst) fun s =>
    { s with mem := writeBytes s.mem dst.toNat (oneBlockDigest (readBytes s.mem src.toNat 32)) }

/-- SELF_DIGEST's checks in the order of R96 and R106. -/
def selfDigestFault (src : Addr) (s : State) : Option FaultReport :=
  rangeFault src 32 s <|> admitFault .read src 32 s <|> admitFault .write src 32 s

/-- SELF_DIGEST (R96). -/
def execSelfDigest (src : Addr) (s : State) : Host.Outcome State Fault Refusal :=
  perform (.selfDigest src) s (selfDigestFault src) fun s =>
    { s with mem := writeBytes s.mem src.toNat (sha256 (readBytes s.mem src.toNat 32)) }

end Sys2Proof.Machine
end

