-- ==== Sys2Proof/Machine/Dispatch.lean ====
section
/-! DEFINITION. The dispatch of a decoded command to its meaning. -/

namespace Sys2Proof.Machine

def exec (i : Instr) (s : State) : Host.Outcome State Fault Refusal :=
  match i with
  | .init c => Sys2Proof.Machine.execInit c s
  | .append c src len => Sys2Proof.Machine.execAppend c src len s
  | .finish c dst => Sys2Proof.Machine.execFinish c dst s
  | .digest src dst => Sys2Proof.Machine.execDigest src dst s
  | .selfDigest src => Sys2Proof.Machine.execSelfDigest src s

end Sys2Proof.Machine
end

