-- ==== Sys2Proof/Machine/Transact.lean ====
section
/-! DEFINITION. One host transaction (20_memory.md R46, R50), and how the next one is taken. -/

namespace Sys2Proof.Machine

/-- A command is decoded and performed as one atomic step (R46, R56, R59, R106). -/
def performCommand (c : Command) (s : State) : Host.Outcome State Fault Refusal :=
  match decode c with
  | .legal i => exec i s
  | .illegal _ => performIllegal c.cw s

/-- The effect of one transaction. -/
def transact (t : Transaction) (s : State) : Host.Outcome State Fault Refusal :=
  match t with
  | .command c => performCommand c s
  | .readStatus => .next (readStatus s)
  | .reset => .next (resetEngine s)
  | .hostRead a => .next (hostRead a s)
  | .hostWrite a b => .next (hostWrite a b s)

/-- The next transaction of the total order is taken from the inbox and takes effect (R28, R50). With none issued the
engine waits: nothing changes (log 12). A transaction with an address outside the address space does not exist and stops
the model (log 7). -/
def nextTransaction (s : State) : Host.Outcome State Fault Refusal :=
  match s.inbox with
  | [] => .next s
  | t :: rest => if t.fits s.addrWidth then transact t { s with inbox := rest } else .fault .noSuchAddress

end Sys2Proof.Machine
end

