-- ==== Sys2Proof/Machine/Step.lean ====
section
/-! DEFINITION. One step of the machine: one host transaction (20_memory.md R46, R50). -/

namespace Sys2Proof.Machine

/-- One step (R28, R46, R50). -/
def step (s : State) : Host.Outcome State Fault Refusal := nextTransaction s

/-- The state with the command of the given bits issued as the next transaction; everything else, the transactions
already issued among it, is as it was. How a program comes to run: log 11. -/
def State.withFetchWord (s : State) (nbits w : Nat) : State :=
  { s with inbox := .command (commandOfNat (w % 2 ^ nbits)) :: s.inbox }

end Sys2Proof.Machine
end

