-- ==== Sys2Proof/Machine/Assembler.lean ====
section
/-! DEFINITION. The written form of commands (30_encoding.md R64), the pseudo-command HASH (R65) and the directives that
describe host memory in a start state (R66). The engine never sees any of them (D24). -/

namespace Sys2Proof.Machine

/-- The mnemonic (R58, R64). -/
def mnemonic : Instr → String
  | .init _ => "INIT"
  | .append _ _ _ => "APPEND"
  | .finish _ _ => "FINISH"
  | .digest _ _ => "DIGEST"
  | .selfDigest _ => "SELF_DIGEST"

/-- A command in assembler text, numbers in decimal (R64). -/
def assembly : Instr → String
  | .init c => "INIT c" ++ toString c.toNat
  | .append c src len => "APPEND c" ++ toString c.toNat ++ ", " ++ toString src.toNat ++ ", " ++ toString len.toNat
  | .finish c dst => "FINISH c" ++ toString c.toNat ++ ", " ++ toString dst.toNat
  | .digest src dst => "DIGEST " ++ toString src.toNat ++ ", " ++ toString dst.toNat
  | .selfDigest src => "SELF_DIGEST " ++ toString src.toNat

/-- The pseudo-command `HASH c<n>, <src>, <len>, <dst>` (R65). -/
def hashCommands (c : BitVec 4) (src : Addr) (len : U64) (dst : Addr) : List Instr :=
  [.init c, .append c src len, .finish c dst]

/-- The transactions by which a host issues a list of commands, in order (R28, R64). -/
def issue (is : List Instr) : List Transaction := is.map fun i => .command (encode i)

/-- The directives of R66. -/
inductive Directive where
  /-- `.ascii <addr>, "<text>"` -/
  | ascii (a : Addr) (text : List Char)
  /-- `.hex <addr>, <hh hh ...>` -/
  | hex (a : Addr) (bytes : List Byte)
  /-- `.fill <addr>, <count>, <byte>` -/
  | fill (a : Addr) (count : Nat) (b : Byte)
deriving DecidableEq, Repr

/-- The bytes a directive places, from its address upward (R66). Character codes: log 13. -/
def Directive.bytes : Directive → List Byte
  | .ascii _ text => text.map fun ch => BitVec.ofNat 8 ch.toNat
  | .hex _ bytes => bytes
  | .fill _ count b => List.replicate count b

/-- The address a directive names (R66). -/
def Directive.addr : Directive → Addr
  | .ascii a _ => a
  | .hex a _ => a
  | .fill a _ _ => a

/-- Start memory with the directive's bytes in it (R66). Where the directive reaches past the top of the address space
the spec is silent; nothing is wrapped or rejected here, and those bytes are listed at addresses that the machine does
not have: DESIGN CHOICE (log 15). -/
def placeDirective (m : Memory) (d : Directive) : Memory := writeBytes m d.addr.toNat d.bytes

end Sys2Proof.Machine
end

