-- ==== Sys2Proof/Safety.lean ====
section
/-! DEFINITION. The terms statements use: a running engine, the invariant of the machine, the message a slot holds, and
what an observer can see. -/

namespace Sys2Proof.Machine

/-- No fault has been taken (R97, R109): the engine performs commands. -/
abbrev State.Running (s : State) : Prop := s.halted = false

/-- The range `[a, a+n)` lies in the address space (R38). -/
abbrev State.InSpace (s : State) (a : Addr) (n : Nat) : Prop := a.toNat + n ≤ 2 ^ s.addrWidth

/-- Admit accepts an access of kind `k` to every byte of `[a, a+n)` (R37). -/
abbrev State.Admits (s : State) (k : AccessKind) (a : Addr) (n : Nat) : Prop :=
  ∀ i < n, s.admits k (a.toNat + i) = true

/-- The state after fault entry with STATUS, FCMD and FADDR as given, nothing else changed (R107, R108). -/
def State.withFault (s : State) (status fcmd : Word) (faddr : Addr) : State :=
  { s with status := status, fcmd := fcmd, faddr := faddr }

/-- `a` lies outside `[b, b+n)`. -/
abbrev Outside (b : Addr) (n : Nat) (a : Nat) : Prop := a < b.toNat ∨ b.toNat + n ≤ a

/-- The valid pending bytes `buf[0 .. blen−1]` of a slot, in stream order (R19). -/
def Slot.pending (sl : Slot) : List Byte := sl.buf.toList.take sl.blen

/-- Slot `sl` is ACTIVE and has absorbed exactly the message `m` since its last INIT: R22 (1)–(4). -/
structure Slot.Holds (sl : Slot) (m : List Byte) : Prop where
  phase_active : sl.phase = .active
  tbl_eq : sl.tbl.toNat = 8 * m.length
  blen_eq : sl.blen = m.length % 64
  h_eq : sl.h = compressAll initialHash (blocksOf m)
  pending_eq : sl.pending = m.drop (64 * (m.length / 64))

/-- Every ACTIVE slot holds some message: R22 at a command boundary. -/
def State.SlotsHoldMessages (s : State) : Prop :=
  ∀ sl ∈ s.slots, sl.phase = .active → ∃ m, sl.Holds m

/-- STATUS is 0, or HALTED with one of the seven causes and every reserved bit 0 (R23, R98). -/
abbrev State.StatusLegal (s : State) : Prop :=
  s.status ∈ [0x00#32, 0x11#32, 0x21#32, 0x31#32, 0x41#32, 0x51#32, 0x61#32, 0x71#32]

/-- The invariant of the machine at every transaction boundary. -/
structure State.Inv (s : State) : Prop where
  /-- R7: the ranges of the parameters -/
  addrWidth_pos : 1 ≤ s.addrWidth
  addrWidth_le : s.addrWidth ≤ 64
  slots_pos : 1 ≤ s.slots.length
  slots_le : s.slots.length ≤ 16
  /-- host memory is in canonical form, within the address space (R36) -/
  mem_wf : s.mem.wf
  mem_in_space : ∀ x ∈ s.mem, x.1 < 2 ^ s.addrWidth
  /-- R23 -/
  status_legal : s.StatusLegal
  /-- R24, R25: while no fault has been taken the record is clear -/
  clear_while_running : s.Running → s.fcmd = 0 ∧ s.faddr = 0
  /-- R25: FADDR has ADDR_WIDTH bits -/
  faddr_fits : s.faddr.toNat < 2 ^ s.addrWidth
  /-- R20, R21, R22 (1)–(3) -/
  active_slots : ∀ sl ∈ s.slots, sl.phase = .active →
    sl.blen ≤ 63 ∧ sl.tbl.toNat % 8 = 0 ∧ sl.blen = sl.tbl.toNat / 8 % 64
  /-- R20: blen is 0..64 in every phase -/
  blen_le : ∀ sl ∈ s.slots, sl.blen ≤ 64

/-- Two slots an observer cannot tell apart: the same phase, and, if ACTIVE, the same hash state, counters and pending
bytes. Bytes at or above blen, and every field of a slot that holds no value, are free (R19, R77, R117). -/
structure Slot.Alike (x y : Slot) : Prop where
  phase_eq : x.phase = y.phase
  h_eq : x.phase = .active → x.h = y.h
  blen_eq : x.phase = .active → x.blen = y.blen
  tbl_eq : x.phase = .active → x.tbl = y.tbl
  pending_eq : x.phase = .active → x.pending = y.pending

/-- Two machines that agree on all that is observable (R34) and on the parameters, and whose slots are alike. -/
structure State.Alike (s t : State) : Prop where
  addrWidth_eq : s.addrWidth = t.addrWidth
  refused_eq : s.refused = t.refused
  slots_alike : List.Forall₂ Slot.Alike s.slots t.slots
  status_eq : s.status = t.status
  fcmd_eq : s.fcmd = t.fcmd
  faddr_eq : s.faddr = t.faddr
  mem_eq : s.mem = t.mem
  inbox_eq : s.inbox = t.inbox
  replies_eq : s.replies = t.replies

/-- APPENDs to slot `c` of consecutive pieces of the given lengths, the first at `src` (R74). -/
def chunks (c : BitVec 4) (src : Addr) : List U64 → List Instr
  | [] => []
  | len :: lens => .append c src len :: chunks c (src + len) lens

/-- The slot a command names, if it names one (R16, R58). -/
def namedSlot : Instr → Option Nat
  | .init c => some c.toNat
  | .append c _ _ => some c.toNat
  | .finish c _ => some c.toNat
  | .digest _ _ => none
  | .selfDigest _ => none

/-- The host-memory addresses a command may read (R44). -/
def MayRead (i : Instr) (a : Nat) : Prop :=
  match i with
  | .init _ => False
  | .append _ src len => src.toNat ≤ a ∧ a < src.toNat + len.toNat
  | .finish _ _ => False
  | .digest src _ => src.toNat ≤ a ∧ a < src.toNat + 32
  | .selfDigest src => src.toNat ≤ a ∧ a < src.toNat + 32

/-- The host-memory addresses a command may write (R44). -/
def MayWrite (i : Instr) (a : Nat) : Prop :=
  match i with
  | .init _ => False
  | .append _ _ _ => False
  | .finish _ dst => dst.toNat ≤ a ∧ a < dst.toNat + 32
  | .digest _ dst => dst.toNat ≤ a ∧ a < dst.toNat + 32
  | .selfDigest src => src.toNat ≤ a ∧ a < src.toNat + 32

end Sys2Proof.Machine
end

