-- ==== Sys2Proof/Certificates/Slice0/Obligations.lean ====
section
/-! DEFINITION. The statements for the provers, from the numbered rules of spec/. Every statement is about every state,
and so about every value of ADDR_WIDTH, NUM_CONTEXTS and Admit (R8). -/

open Sys2Proof Sys2Proof.Machine

/-! ### Encoding and decoding -/

/-- The spec's inference R63 (from R57 and R58): the command words of every legal command, by formula, and its three
examples. Whatever the operands are, they play no part in which command a word is (R59). -/
def Obligations.LegalWordsDecodeByFormula : Prop :=
  (∀ (c : BitVec 4) (src dst : Addr) (len : U64),
    decode ⟨0x00000001#32 ||| (c.setWidth 32 <<< 4), src, dst, len⟩ = .legal (.init c) ∧
    decode ⟨0x00000002#32 ||| (c.setWidth 32 <<< 4), src, dst, len⟩ = .legal (.append c src len) ∧
    decode ⟨0x00000003#32 ||| (c.setWidth 32 <<< 4), src, dst, len⟩ = .legal (.finish c dst) ∧
    decode ⟨0x00000004#32, src, dst, len⟩ = .legal (.digest src dst) ∧
    decode ⟨0x00000005#32, src, dst, len⟩ = .legal (.selfDigest src)) ∧
  decode ⟨0x00000001#32, 0, 0, 0⟩ = .legal (.init 0) ∧
  decode ⟨0x00000012#32, 0x1000, 0, 1⟩ = .legal (.append 1 0x1000 1) ∧
  decode ⟨0x000000F3#32, 0, 0x200, 0⟩ = .legal (.finish 15 0x200)

/-- R60, R99: a word is illegal exactly when RSV ≠ 0, OP is 0x0 or 0x6..0xF, or OP is 0x4 or 0x5 with CTX ≠ 0; a
running engine then takes ILLEGAL_COMMAND with FADDR 0 and changes nothing else; every other word is a command. -/
def Obligations.IllegalWordsTakeIllegalCommandFault : Prop :=
  ∀ cmd : Command,
    let rsv := cmd.cw.toNat / 256
    let ctx := cmd.cw.toNat / 16 % 16
    let op := cmd.cw.toNat % 16
    let bad := rsv ≠ 0 ∨ op = 0 ∨ 6 ≤ op ∨ (op = 4 ∨ op = 5) ∧ ctx ≠ 0
    (bad → (∃ why, decode cmd = .illegal why) ∧
      ∀ (s : State) (rest : List Transaction), s.Running → s.inbox = .command cmd :: rest →
        cmd.fits s.addrWidth = true →
        step s = .next { s with inbox := rest, status := 0x00000011#32, fcmd := cmd.cw, faddr := 0 }) ∧
    (¬ bad → ∃ i, decode cmd = .legal i)

/-- Decode and encode agree for every instruction and every value of its operands (R57, R58, R63, R64); the encoded
command of a well-formed instruction is a command of the machine. -/
def Obligations.DecodeOfEncodeIsIdentity : Prop :=
  ∀ i : Instr, decode (encode i) = .legal i ∧
    ∀ addrWidth, i.wellFormed addrWidth = true → (encode i).fits addrWidth = true

/-- No two command words are the same command: a legal command's word is the encoder's word for what it decodes to, so
that FCMD, which the model's fault entry writes from the decoded command, is the word as issued (R24, R57). -/
def Obligations.LegalWordIsReencodedExactly : Prop :=
  ∀ (cmd : Command) (i : Instr), decode cmd = .legal i → encodeWord i = cmd.cw

/-- R61: two commands with the same word that differ in ignored operands only have the same step, whatever the state:
the same effect, the same fault, the same fault record. -/
def Obligations.IgnoredOperandsHaveNoEffect : Prop :=
  ∀ (s : State) (x y : Command) (rest : List Transaction),
    x.fits s.addrWidth = true → y.fits s.addrWidth = true → x.cw = y.cw →
    (opField x.cw = 2 ∨ opField x.cw = 4 ∨ opField x.cw = 5 → x.src = y.src) →
    (opField x.cw = 3 ∨ opField x.cw = 4 → x.dst = y.dst) →
    (opField x.cw = 2 → x.len = y.len) →
    step { s with inbox := .command x :: rest } = step { s with inbox := .command y :: rest }

/-! ### The step -/

/-- A step performs the command that is next, taken from the inbox: when it decodes to an instruction, the step is that
instruction's meaning; a well-formed instruction is performed when its encoding is next. The inbox is the model's form
of the order of R50 (log 5). -/
def Obligations.StepPerformsTheDecodedCommand : Prop :=
  (∀ (s : State) (cmd : Command) (i : Instr) (rest : List Transaction),
    s.inbox = .command cmd :: rest → cmd.fits s.addrWidth = true → decode cmd = .legal i →
    step s = exec i { s with inbox := rest }) ∧
  (∀ (s : State) (i : Instr) (rest : List Transaction),
    s.inbox = .command (encode i) :: rest → i.wellFormed s.addrWidth = true →
    step s = exec i { s with inbox := rest })

/-- The model's choices at the edge of the interface: with no transaction issued the engine waits (log 12), and a
transaction that names an address outside the address space does not exist (log 7); every other transaction has a next
state, so no command is refused and none is stuck (R97: no partial or arbitrary result). -/
def Obligations.EveryTransactionCompletes : Prop :=
  (∀ s : State, s.inbox = [] → step s = .next s) ∧
  (∀ (s : State) (x : Transaction) (rest : List Transaction), s.inbox = x :: rest →
    (x.fits s.addrWidth = true → ∃ t, step s = .next t) ∧
    (x.fits s.addrWidth = false → step s = .fault .noSuchAddress))

/-- R26: ReadStatus answers the triple (STATUS, FCMD, FADDR) at any time, halted or not, and changes no state of the
engine or of host memory. The answer stands in `replies`, the model's record of what hosts were told (log 6). -/
def Obligations.ReadStatusReturnsTheFaultRecord : Prop :=
  ∀ (s : State) (rest : List Transaction), s.inbox = .readStatus :: rest →
    step s = .next { s with inbox := rest, replies := s.replies ++ [.status s.status s.fcmd s.faddr] }

/-- Host memory is plain (R47, R50): a host's write changes the byte it names and no other byte and nothing of the
engine; a host's read answers the byte most recently written and changes nothing. -/
def Obligations.HostAccessesArePlainMemory : Prop :=
  (∀ (s : State) (a : Addr) (b : Byte) (rest : List Transaction), s.mem.wf → addrFits s.addrWidth a = true →
    s.inbox = .hostWrite a b :: rest →
    ∃ mem, step s = .next { s with inbox := rest, mem := mem } ∧ mem.wf ∧
      mem.read a.toNat = b ∧ ∀ x, x ≠ a.toNat → mem.read x = s.mem.read x) ∧
  (∀ (s : State) (a : Addr) (rest : List Transaction), addrFits s.addrWidth a = true →
    s.inbox = .hostRead a :: rest →
    step s = .next { s with inbox := rest, replies := s.replies ++ [.byte (s.mem.read a.toNat)] })

/-- The parameters are fixed: no transaction changes ADDR_WIDTH, Admit or NUM_CONTEXTS (R8, R16, R37). -/
def Obligations.ParametersNeverChange : Prop :=
  ∀ s t : State, step s = .next t →
    t.addrWidth = s.addrWidth ∧ t.refused = s.refused ∧ t.slots.length = s.slots.length

/-! ### Reset and the halted engine -/

/-- Right after reset STATUS, FCMD and FADDR are 0 and each of the NUM_CONTEXTS slots is UNINIT (R116, R16; the spec's
table R117, which it derives). Of the fields to which the spec gives no value nothing is said. -/
def Obligations.ResetStateHoldsTheSpecsValues : Prop :=
  ∀ cfg : Config,
    (State.resetOf cfg).status = 0x00000000#32 ∧ (State.resetOf cfg).fcmd = 0x00000000#32 ∧
    (State.resetOf cfg).faddr = 0 ∧ (State.resetOf cfg).slots.length = cfg.numContexts ∧
    ∀ sl ∈ (State.resetOf cfg).slots, sl.phase = .uninit

/-- R116: RESET clears the fault record and puts every slot in UNINIT, halted or not; host memory is not touched. What
the other fields of a slot then hold is free (log 4), so nothing is said of them. -/
def Obligations.ResetClearsRecordAndPhases : Prop :=
  ∀ (s : State) (rest : List Transaction), s.inbox = .reset :: rest →
    ∃ t, step s = .next t ∧ t.status = 0x00000000#32 ∧ t.fcmd = 0x00000000#32 ∧ t.faddr = 0 ∧
      t.slots.length = s.slots.length ∧ (∀ sl ∈ t.slots, sl.phase = .uninit) ∧
      t.mem = s.mem ∧ t.inbox = rest ∧ t.replies = s.replies ∧ t.addrWidth = s.addrWidth ∧ t.refused = s.refused

/-- R109: while HALTED = 1 a command, legal or not, has no effect at all: it is taken from the inbox and nothing else
changes; no meaning changes the state either; ReadStatus still answers the record of the first fault; and the halted
state lasts until reset. -/
def Obligations.HaltedEnginePerformsNoCommand : Prop :=
  ∀ (s : State), s.halted = true →
    (∀ i : Instr, exec i s = .next s) ∧
    (∀ (cmd : Command) (rest : List Transaction), s.inbox = .command cmd :: rest → cmd.fits s.addrWidth = true →
      step s = .next { s with inbox := rest }) ∧
    (∀ rest : List Transaction, s.inbox = .readStatus :: rest →
      step s = .next { s with inbox := rest, replies := s.replies ++ [.status s.status s.fcmd s.faddr] }) ∧
    (∀ t, step s = .next t → (∀ rest, s.inbox ≠ .reset :: rest) → t.halted = true)

/-- R110: the only way out of the halted state is reset, which clears the fault record and sets every slot to UNINIT;
any other transaction keeps the record and every slot, so no second fault is raised. -/
def Obligations.OnlyResetLeavesTheHaltedState : Prop :=
  ∀ s t : State, s.halted = true → step s = .next t →
    ((∀ rest, s.inbox ≠ .reset :: rest) →
      t.halted = true ∧ t.status = s.status ∧ t.fcmd = s.fcmd ∧ t.faddr = s.faddr ∧ t.slots = s.slots) ∧
    ((∃ rest, s.inbox = .reset :: rest) →
      t.halted = false ∧ t.status = 0 ∧ t.fcmd = 0 ∧ t.faddr = 0 ∧ ∀ sl ∈ t.slots, sl.phase = .uninit)

/-! ### Faults -/

/-- R100: INIT, APPEND and FINISH whose CTX is at least NUM_CONTEXTS take BAD_CONTEXT, whatever else is wrong. -/
def Obligations.BadContextFault : Prop :=
  ∀ (s : State) (c : BitVec 4) (src dst : Addr) (len : U64), s.Running → s.slots.length ≤ c.toNat →
    exec (.init c) s = .next (s.withFault 0x00000021 (0x00000001#32 ||| (c.setWidth 32 <<< 4)) 0) ∧
    exec (.append c src len) s = .next (s.withFault 0x00000021 (0x00000002#32 ||| (c.setWidth 32 <<< 4)) 0) ∧
    exec (.finish c dst) s = .next (s.withFault 0x00000021 (0x00000003#32 ||| (c.setWidth 32 <<< 4)) 0)

/-- R101: APPEND, with any LEN and so with LEN = 0, and FINISH on a slot in UNINIT take CONTEXT_UNINIT. -/
def Obligations.ContextUninitFault : Prop :=
  ∀ (s : State) (c : BitVec 4) (sl : Slot) (src dst : Addr) (len : U64), s.Running →
    s.slots[c.toNat]? = some sl → sl.phase = .uninit →
    exec (.append c src len) s = .next (s.withFault 0x00000031 (0x00000002#32 ||| (c.setWidth 32 <<< 4)) 0) ∧
    exec (.finish c dst) s = .next (s.withFault 0x00000031 (0x00000003#32 ||| (c.setWidth 32 <<< 4)) 0)

/-- R102: APPEND and FINISH on a slot in CONSUMED take CONTEXT_CONSUMED: no second digest is written. -/
def Obligations.ContextConsumedFault : Prop :=
  ∀ (s : State) (c : BitVec 4) (sl : Slot) (src dst : Addr) (len : U64), s.Running →
    s.slots[c.toNat]? = some sl → sl.phase = .consumed →
    exec (.append c src len) s = .next (s.withFault 0x00000041 (0x00000002#32 ||| (c.setWidth 32 <<< 4)) 0) ∧
    exec (.finish c dst) s = .next (s.withFault 0x00000041 (0x00000003#32 ||| (c.setWidth 32 <<< 4)) 0)

/-- R103: APPEND that would carry tbl to 2^64 or more, on unbounded integers, takes LENGTH_OVERFLOW, whatever its
range. -/
def Obligations.LengthOverflowFault : Prop :=
  ∀ (s : State) (c : BitVec 4) (sl : Slot) (src : Addr) (len : U64), s.Running →
    s.slots[c.toNat]? = some sl → sl.phase = .active → 2 ^ 64 ≤ sl.tbl.toNat + 8 * len.toNat →
    exec (.append c src len) s = .next (s.withFault 0x00000051 (0x00000002#32 ||| (c.setWidth 32 <<< 4)) 0)

/-- R104: a range that would wrap takes ADDRESS_RANGE with FADDR its base, when no check that comes before it fails
(R106); DIGEST checks SRC, then DST; APPEND checks its range when LEN ≥ 1. -/
def Obligations.AddressRangeFault : Prop :=
  ∀ (s : State), s.Running →
    (∀ (c : BitVec 4) (sl : Slot) (src : Addr) (len : U64), s.slots[c.toNat]? = some sl → sl.phase = .active →
      sl.tbl.toNat + 8 * len.toNat < 2 ^ 64 → 1 ≤ len.toNat → 2 ^ s.addrWidth < src.toNat + len.toNat →
      exec (.append c src len) s = .next (s.withFault 0x00000061 (0x00000002#32 ||| (c.setWidth 32 <<< 4)) src)) ∧
    (∀ (c : BitVec 4) (sl : Slot) (dst : Addr), s.slots[c.toNat]? = some sl → sl.phase = .active →
      2 ^ s.addrWidth < dst.toNat + 32 →
      exec (.finish c dst) s = .next (s.withFault 0x00000061 (0x00000003#32 ||| (c.setWidth 32 <<< 4)) dst)) ∧
    (∀ src dst : Addr, 2 ^ s.addrWidth < src.toNat + 32 →
      exec (.digest src dst) s = .next (s.withFault 0x00000061 0x00000004 src)) ∧
    (∀ src dst : Addr, s.InSpace src 32 → 2 ^ s.addrWidth < dst.toNat + 32 →
      exec (.digest src dst) s = .next (s.withFault 0x00000061 0x00000004 dst)) ∧
    (∀ src : Addr, 2 ^ s.addrWidth < src.toNat + 32 →
      exec (.selfDigest src) s = .next (s.withFault 0x00000061 0x00000005 src))

/-- R105: a well-formed range that holds a byte Admit refuses for the command's kind of access takes MEMORY_FAULT, FADDR
the lowest refused address of the first range that fails, the read range before the write range. `a` is that address:
refused, with every lower address of the range admitted. -/
def Obligations.MemoryFaultRecordsLowestRefusedAddress : Prop :=
  ∀ (s : State) (k : AccessKind) (base a : Addr) (n : Nat), s.Running →
    s.InSpace base n → base.toNat ≤ a.toNat → a.toNat < base.toNat + n → s.admits k a.toNat = false →
    (∀ x, base.toNat ≤ x → x < a.toNat → s.admits k x = true) →
    (∀ (c : BitVec 4) (sl : Slot) (len : U64), k = .read → n = len.toNat → s.slots[c.toNat]? = some sl →
      sl.phase = .active → sl.tbl.toNat + 8 * len.toNat < 2 ^ 64 →
      exec (.append c base len) s = .next (s.withFault 0x00000071 (0x00000002#32 ||| (c.setWidth 32 <<< 4)) a)) ∧
    (∀ (c : BitVec 4) (sl : Slot), k = .write → n = 32 → s.slots[c.toNat]? = some sl → sl.phase = .active →
      exec (.finish c base) s = .next (s.withFault 0x00000071 (0x00000003#32 ||| (c.setWidth 32 <<< 4)) a)) ∧
    (∀ dst : Addr, k = .read → n = 32 → s.InSpace dst 32 →
      exec (.digest base dst) s = .next (s.withFault 0x00000071 0x00000004 a)) ∧
    (∀ src : Addr, k = .write → n = 32 → s.InSpace src 32 → s.Admits .read src 32 →
      exec (.digest src base) s = .next (s.withFault 0x00000071 0x00000004 a)) ∧
    (k = .read → n = 32 → exec (.selfDigest base) s = .next (s.withFault 0x00000071 0x00000005 a)) ∧
    (k = .write → n = 32 → s.Admits .read base 32 →
      exec (.selfDigest base) s = .next (s.withFault 0x00000071 0x00000005 a))

/-- R107, R108: a command of a running engine, legal or not, after which the engine is halted has changed the fault
record and nothing else, no slot and no byte; STATUS is (cause << 4) | 1 for a cause of R98, and FCMD is the command's
word. -/
def Obligations.FaultsArePrecise : Prop :=
  ∀ (s t : State) (cmd : Command), s.Running → performCommand cmd s = .next t → t.halted = true →
    ∃ (cause : Word) (faddr : Addr), 1 ≤ cause.toNat ∧ cause.toNat ≤ 7 ∧
      t = { s with status := (cause <<< 4) ||| 1, fcmd := cmd.cw, faddr := faddr }

/-- R24: a command that faults leaves its word, exactly as issued, in FCMD; a command that does not fault leaves FCMD,
FADDR and STATUS as they were. -/
def Obligations.FaultRecordHoldsTheIssuedWord : Prop :=
  ∀ (s t : State) (cmd : Command) (rest : List Transaction), s.Running → s.inbox = .command cmd :: rest →
    step s = .next t →
    (t.halted = true → t.fcmd = cmd.cw) ∧
    (t.halted = false → t.fcmd = s.fcmd ∧ t.faddr = s.faddr ∧ t.status = s.status)

/-! ### INIT -/

/-- R72: INIT of a slot that exists, in any phase, loads H0 (the values of R69), a zero buffer, blen 0, tbl 0 and phase
ACTIVE into it, and changes nothing else. -/
def Obligations.InitLoadsTheInitialState : Prop :=
  ∀ (s : State) (c : BitVec 4), s.Running → c.toNat < s.slots.length →
    let fresh : Slot :=
      { phase := .active
        h := #v[0x6A09E667, 0xBB67AE85, 0x3C6EF372, 0xA54FF53A, 0x510E527F, 0x9B05688C, 0x1F83D9AB, 0x5BE0CD19]
        buf := Vector.replicate 64 0x00
        blen := 0
        tbl := 0 }
    exec (.init c) s = .next { s with slots := s.slots.set c.toNat fresh }

/-- The spec's inference R80 (from R72): INIT erases all history of its slot: whatever the slot held, the state after
INIT is the same, and a second INIT changes nothing. -/
def Obligations.InitErasesTheSlotsHistory : Prop :=
  ∀ (s : State) (c : BitVec 4) (x : Slot), s.Running →
    exec (.init c) { s with slots := s.slots.set c.toNat x } = exec (.init c) s ∧
    ∀ t, exec (.init c) s = .next t → t.Running → exec (.init c) t = .next t

/-! ### APPEND -/

/-- R73: APPEND runs its byte loop over the bytes of `[SRC, SRC+LEN)` as they stand when it begins, in ascending order:
each byte goes to `buf[blen]`, and the 64th is followed by COMPRESS and blen 0; then tbl grows by 8·LEN. Nothing but
slot c changes. -/
def Obligations.AppendRunsTheByteLoop : Prop :=
  ∀ (s : State) (c : BitVec 4) (src : Addr) (len : U64) (sl : Slot), s.Running →
    s.slots[c.toNat]? = some sl → sl.phase = .active → sl.tbl.toNat + 8 * len.toNat < 2 ^ 64 →
    (len ≠ 0 → s.InSpace src len.toNat ∧ s.Admits .read src len.toNat) →
    let loop := (readBytes s.mem src.toNat len.toNat).foldl (fun (x : Slot) (b : Byte) =>
      let buf := x.buf.setIfInBounds x.blen b
      if x.blen + 1 = 64 then { x with h := compress x.h buf, buf := buf, blen := 0 }
      else { x with buf := buf, blen := x.blen + 1 }) sl
    exec (.append c src len) s = .next { s with slots := s.slots.set c.toNat { loop with tbl := sl.tbl + 8 * len } }

/-- The spec's inference R22 (from R72 and R73), carried by APPEND: a slot that holds the message m holds m ‖ (the LEN
bytes at SRC) after APPEND: its hash state is H0 advanced over the whole blocks, its buffer the tail, its counter the
bit length. -/
def Obligations.AppendExtendsTheHeldMessage : Prop :=
  ∀ (s : State) (c : BitVec 4) (src : Addr) (len : U64) (sl : Slot) (m : List Byte), s.Running →
    s.slots[c.toNat]? = some sl → sl.Holds m → sl.tbl.toNat + 8 * len.toNat < 2 ^ 64 →
    (len ≠ 0 → s.InSpace src len.toNat ∧ s.Admits .read src len.toNat) →
    ∃ sl', exec (.append c src len) s = .next { s with slots := s.slots.set c.toNat sl' } ∧
      sl'.Holds (m ++ readBytes s.mem src.toNat len.toNat)

/-- R73, D30: APPEND with LEN = 0 on an ACTIVE slot is a no-op, whatever SRC is. -/
def Obligations.AppendOfNothingIsNoOp : Prop :=
  ∀ (s : State) (c : BitVec 4) (src : Addr) (sl : Slot), s.Running → s.slots[c.toNat]? = some sl →
    sl.phase = .active → exec (.append c src 0) s = .next s

/-- The spec's inference R74 (from R73): append-call boundaries are not observable. INIT followed by APPENDs of the
consecutive pieces of a byte range leaves exactly the state that INIT followed by one APPEND of the whole range
leaves. -/
def Obligations.ChunkingIsNotObservable : Prop :=
  ∀ (s : State) (c : BitVec 4) (src : Addr) (total : U64) (lens : List U64) (rest : List Transaction),
    s.Running → s.addrWidth ≤ 64 → c.toNat < s.slots.length →
    total.toNat = (lens.map BitVec.toNat).sum → 8 * total.toNat < 2 ^ 64 →
    s.InSpace src total.toNat → s.Admits .read src total.toNat → addrFits s.addrWidth src = true →
    (∀ i ∈ chunks c src lens, i.wellFormed s.addrWidth = true) →
    ∃ t,
      Host.Core.run core (lens.length + 1) { s with inbox := issue (.init c :: chunks c src lens) ++ rest } = .next t ∧
      Host.Core.run core 2 { s with inbox := issue [.init c, .append c src total] ++ rest } = .next t

/-- The spec's inference R81 (from R73 and R75): the blocks COMPRESS runs over, named, and how many they are. An APPEND
of k bytes from blen = b runs it over the ⌊(b + k) / 64⌋ whole blocks of the pending bytes and the new ones, in stream
order, and leaves blen = (b + k) mod 64. FINISH runs it over one block when blen ≤ 55 and over two otherwise. For a slot
that holds m, and so however m was split, the blocks from INIT to the end of FINISH are those of m and then FINISH's,
⌊(|m| + 8) / 64⌋ + 1 in all. -/
def Obligations.CompressCallCounts : Prop :=
  (∀ (sl : Slot) (bs : List Byte), sl.blen ≤ 63 →
    (sl.absorb bs).h = compressAll sl.h (blocksOf (sl.pending ++ bs)) ∧
    (blocksOf (sl.pending ++ bs)).length = (sl.blen + bs.length) / 64 ∧
    (sl.absorb bs).blen = (sl.blen + bs.length) % 64) ∧
  (∀ sl : Slot, sl.blen ≤ 63 →
    sl.finalHash = compressAll sl.h (finalBlocks sl.pending sl.tbl) ∧
    (finalBlocks sl.pending sl.tbl).length = if sl.blen ≤ 55 then 1 else 2) ∧
  (∀ (sl : Slot) (m : List Byte), sl.Holds m →
    sl.finalHash = compressAll initialHash (blocksOf m ++ finalBlocks sl.pending sl.tbl) ∧
    (blocksOf m ++ finalBlocks sl.pending sl.tbl).length = (m.length + 8) / 64 + 1)

/-! ### FINISH -/

/-- R75, and the spec's inference R76 from it: FINISH of an ACTIVE slot with n pending bytes compresses one block,
`buf[0..n−1] ‖ 0x80 ‖ zeros ‖ bytes_be64(tbl)`, when n ≤ 55, and two when n ≥ 56, the length standing in the second;
it writes the eight hash words, each most significant byte first, in ascending addresses to [DST, DST+32), and makes
the slot CONSUMED. No other slot, no other byte and nothing else changes (but the model's counter of free values, log
4). -/
def Obligations.FinishWritesThePaddedDigest : Prop :=
  ∀ (s : State) (c : BitVec 4) (dst : Addr) (sl : Slot), s.Running → s.mem.wf → s.slots[c.toNat]? = some sl →
    sl.phase = .active → sl.blen ≤ 63 → s.InSpace dst 32 → s.Admits .write dst 32 →
    let n := sl.blen
    let suffix := bytesBe64 sl.tbl
    let hfin :=
      if n ≤ 55 then compress sl.h (blockOfBytes (sl.pending ++ [0x80] ++ List.replicate (55 - n) 0x00 ++ suffix))
      else compress (compress sl.h (blockOfBytes (sl.pending ++ [0x80] ++ List.replicate (63 - n) 0x00)))
        (blockOfBytes (List.replicate 56 0x00 ++ suffix))
    ∃ t, exec (.finish c dst) s = .next t ∧
      (∀ i j : Nat, (hi : i < 8) → j < 4 →
        t.mem.read (dst.toNat + (4 * i + j)) = (hfin[i]).extractLsb' (24 - 8 * j) 8) ∧
      (∀ a, Outside dst 32 a → t.mem.read a = s.mem.read a) ∧
      (∃ sl', t.slots = s.slots.set c.toNat sl' ∧ sl'.phase = .consumed) ∧
      t.status = s.status ∧ t.fcmd = s.fcmd ∧ t.faddr = s.faddr ∧ t.inbox = s.inbox ∧ t.replies = s.replies ∧
      t.addrWidth = s.addrWidth ∧ t.refused = s.refused ∧ t.mem.wf

/-- FINISH of a slot that holds the message m (the spec's inference R22) writes SHA256(m) (the spec's inference R79,
from R72, R73, R75 and R78). -/
def Obligations.FinishWritesSha256OfTheHeldMessage : Prop :=
  ∀ (s : State) (c : BitVec 4) (dst : Addr) (sl : Slot) (m : List Byte), s.Running → s.mem.wf →
    s.slots[c.toNat]? = some sl → sl.Holds m → s.InSpace dst 32 → s.Admits .write dst 32 →
    ∃ t, exec (.finish c dst) s = .next t ∧ readBytes t.mem dst.toNat 32 = sha256 m

/-- The spec's inference R79 (from R72, R73, R75, R78 and R74): for every message of fewer than 2^61 bytes and every
split of it into pieces, wherever in host memory each stands, the commands INIT c, APPEND c of each piece in order,
FINISH c, DST write exactly SHA256(m) at [DST, DST+32) and no other byte. -/
def Obligations.HashSequenceWritesSha256 : Prop :=
  ∀ (s : State) (c : BitVec 4) (pieces : List (Addr × U64)) (dst : Addr) (rest : List Transaction),
    s.Running → s.mem.wf → c.toNat < s.slots.length →
    (∀ p ∈ pieces, addrFits s.addrWidth p.1 = true ∧
      (p.2 ≠ 0 → s.InSpace p.1 p.2.toNat ∧ s.Admits .read p.1 p.2.toNat)) →
    (pieces.map fun p => p.2.toNat).sum < 2 ^ 61 →
    s.InSpace dst 32 → s.Admits .write dst 32 →
    s.inbox = issue (.init c :: pieces.map (fun p => .append c p.1 p.2) ++ [.finish c dst]) ++ rest →
    ∃ t, Host.Core.run core (pieces.length + 2) s = .next t ∧
      readBytes t.mem dst.toNat 32 = sha256 (pieces.flatMap fun p => readBytes s.mem p.1.toNat p.2.toNat) ∧
      (∀ a, Outside dst 32 a → t.mem.read a = s.mem.read a) ∧
      t.Running ∧ t.inbox = rest

/-! ### DIGEST and SELF_DIGEST -/

/-- R95: DIGEST writes the SHA-256 digest of the 32 bytes at SRC to [DST, DST+32); the ranges may overlap, since the
input is all read before any byte is written. No slot and nothing else changes. -/
def Obligations.DigestWritesSha256 : Prop :=
  ∀ (s : State) (src dst : Addr), s.Running → s.mem.wf → s.InSpace src 32 → s.InSpace dst 32 →
    s.Admits .read src 32 → s.Admits .write dst 32 →
    ∃ mem, exec (.digest src dst) s = .next { s with mem := mem } ∧ mem.wf ∧
      readBytes mem dst.toNat 32 = sha256 (readBytes s.mem src.toNat 32) ∧
      ∀ a, Outside dst 32 a → mem.read a = s.mem.read a

/-- R96: SELF_DIGEST replaces the 32 bytes at SRC by their SHA-256 digest. No slot and nothing else changes. -/
def Obligations.SelfDigestReplacesItsBuffer : Prop :=
  ∀ (s : State) (src : Addr), s.Running → s.mem.wf → s.InSpace src 32 →
    s.Admits .read src 32 → s.Admits .write src 32 →
    ∃ mem, exec (.selfDigest src) s = .next { s with mem := mem } ∧ mem.wf ∧
      readBytes mem src.toNat 32 = sha256 (readBytes s.mem src.toNat 32) ∧
      ∀ a, Outside src 32 a → mem.read a = s.mem.read a

/-- The spec's inference in R96 (from R95): SELF_DIGEST is identical to DIGEST with DST = SRC: the same next state
when no check fails, and when one does, the same STATUS and FADDR (FCMD holds the other word). -/
def Obligations.SelfDigestIsDigestInPlace : Prop :=
  ∀ (s : State) (src : Addr), s.Running →
    ∃ t u, exec (.selfDigest src) s = .next t ∧ exec (.digest src src) s = .next u ∧
      (t.Running → u = t) ∧ (t.halted = true → u = { t with fcmd := 0x00000004 })

/-! ### The whole machine -/

/-- The reset state of every machine with parameters in the ranges of R7 meets the invariant. -/
def Obligations.ResetStateMeetsTheInvariant : Prop :=
  ∀ cfg : Config, cfg.Valid → (State.resetOf cfg).Inv

/-- Every step keeps the invariant: legal STATUS with the record clear while running (R23–R25), FADDR an address of the
machine, host memory canonical and inside the address space (R36), and for every ACTIVE slot blen ≤ 63, tbl mod 8 = 0
and blen = (tbl / 8) mod 64 (R20–R22). -/
def Obligations.StepKeepsTheInvariant : Prop :=
  ∀ s t : State, s.Inv → step s = .next t → t.Inv

/-- The spec's inference R22 (from R72 and R73): at every command boundary every ACTIVE slot holds exactly some
message: H is H0 advanced over its whole blocks, buf[0..blen−1] the remaining tail, tbl its bit length. -/
def Obligations.StepKeepsEveryActiveSlotHoldingAMessage : Prop :=
  ∀ s t : State, s.SlotsHoldMessages → step s = .next t → t.SlotsHoldMessages

/-- R23: from a legal STATUS every step leads to a legal STATUS (reserved bits 0, a cause of R98 exactly when HALTED);
and only fault entry and reset write it: a step that changes it ends halted, or clears it by RESET. -/
def Obligations.StatusStaysLegal : Prop :=
  ∀ s t : State, s.StatusLegal → step s = .next t →
    t.StatusLegal ∧
    (t.status ≠ s.status → (s.Running ∧ t.halted = true) ∨ (∃ rest, s.inbox = .reset :: rest) ∧ t.status = 0)

/-- R16: a command reads and writes no slot but the one it names, and DIGEST and SELF_DIGEST read and write none:
rewriting any other slot before the command, or after it, gives the same state, and the command leaves that slot as it
was. -/
def Obligations.SlotsAreIndependent : Prop :=
  ∀ (s t : State) (i : Instr) (k : Nat) (x : Slot), namedSlot i ≠ some k → exec i s = .next t →
    exec i { s with slots := s.slots.set k x } = .next { t with slots := t.slots.set k x } ∧
    t.slots[k]? = s.slots[k]?

/-- R44, R45: whatever the state and whatever becomes of the command, every byte outside the range the command may write
is as it was, which for INIT and APPEND is all of host memory. -/
def Obligations.HostMemoryFrame : Prop :=
  ∀ (s t : State) (i : Instr) (a : Nat), exec i s = .next t → ¬ MayWrite i a → t.mem.read a = s.mem.read a

/-- R45, R54: a command depends on host memory only through the bytes it may read: over two memories that agree on them
its outcomes agree in all but memory, and each byte is written alike in both or in neither. -/
def Obligations.CommandsReadOnlyTheirRange : Prop :=
  ∀ (s t : State) (i : Instr) (m : Memory), s.mem.wf → m.wf →
    (∀ a, MayRead i a → m.read a = s.mem.read a) → exec i s = .next t →
    ∃ m', exec i { s with mem := m } = .next { t with mem := m' } ∧
      ∀ a, m'.read a = t.mem.read a ∨ (m'.read a = m.read a ∧ t.mem.read a = s.mem.read a)

/-- R77, R19 and the spec's inference R117: what no rule reads no observation can tell. Of two machines alike in
everything observable and in the ACTIVE slots' hash states, counters and pending bytes, every step leads to two
machines alike; the values held by a slot that is not ACTIVE, the buffer bytes at and above blen, and the free values
drawn never show. -/
def Obligations.ValuelessFieldsAreNotObservable : Prop :=
  ∀ s s' t : State, s.Inv → s'.Inv → s.Alike s' → step s = .next t →
    ∃ t', step s' = .next t' ∧ t.Alike t'

/-! ### The algorithm -/

/-- R67: K[t] is ⌊∛(p_t · 2^96)⌋ mod 2^32 for the (t+1)-th prime p_t: there is an r, the integer cube root. -/
def Obligations.RoundConstantsAreCubeRootFractions : Prop :=
  roundConstants.length = 64 ∧ Nat.nth Nat.Prime 0 = 2 ∧ Nat.nth Nat.Prime 63 = 311 ∧
  ∀ t < 64, ∃ r : Nat, r ^ 3 ≤ Nat.nth Nat.Prime t * 2 ^ 96 ∧ Nat.nth Nat.Prime t * 2 ^ 96 < (r + 1) ^ 3 ∧
    roundConstants[t]? = some (BitVec.ofNat 32 (r % 2 ^ 32))

/-- R69: H0[i] is ⌊√(p_i · 2^64)⌋ mod 2^32 for the first 8 primes, which the spec takes from FIPS 180-4 (log 9). -/
def Obligations.InitialHashIsSquareRootFractions : Prop :=
  ∀ i, (hi : i < 8) → initialHash[i] = BitVec.ofNat 32 (Nat.sqrt (Nat.nth Nat.Prime i * 2 ^ 64) % 2 ^ 32)

/-- R83, R84: ROTR moves bit (i + n) mod 32 to bit i; SHR moves bit i + n to bit i and fills with zeros. -/
def Obligations.RotationAndShiftMoveBits : Prop :=
  ∀ (x : Word) (n i : Nat), 1 ≤ n → n ≤ 31 → i < 32 →
    (rotr x n).getLsbD i = x.getLsbD ((i + n) % 32) ∧
    (shr x n).getLsbD i = (decide (i + n < 32) && x.getLsbD (i + n))

/-- R85, R86: each bit of Ch is the y bit where the x bit is 1 and the z bit where it is 0; each bit of Maj is the value
held by at least two of the three. -/
def Obligations.ChooseAndMajorityWorkBitwise : Prop :=
  ∀ (x y z : Word) (i : Nat), i < 32 →
    (ch x y z).getLsbD i = (if x.getLsbD i then y.getLsbD i else z.getLsbD i) ∧
    (maj x y z).getLsbD i =
      decide (2 ≤ (x.getLsbD i).toNat + (y.getLsbD i).toNat + (z.getLsbD i).toNat)

/-- R87–R90: the four mixing functions, bit by bit, with their rotation and shift amounts. -/
def Obligations.SigmaFunctionsMixBits : Prop :=
  ∀ (x : Word) (i : Nat), i < 32 →
    let bit := fun n => x.getLsbD ((i + n) % 32)
    let shifted := fun n => decide (i + n < 32) && x.getLsbD (i + n)
    (bigSigma0 x).getLsbD i = ((bit 2 ^^ bit 13) ^^ bit 22) ∧
    (bigSigma1 x).getLsbD i = ((bit 6 ^^ bit 11) ^^ bit 25) ∧
    (smallSigma0 x).getLsbD i = ((bit 7 ^^ bit 18) ^^ shifted 3) ∧
    (smallSigma1 x).getLsbD i = ((bit 17 ^^ bit 19) ^^ shifted 10)

/-- R91: the schedule of a block has 64 words; the first 16 are the block's bytes read big-endian four at a time; each
later one is σ1(W[t−2]) + W[t−7] + σ0(W[t−15]) + W[t−16]. -/
def Obligations.ScheduleFollowsItsRecurrence : Prop :=
  ∀ b : Block, ∃ w : Nat → Word, schedule b = (List.range 64).map w ∧
    (∀ t, (ht : t < 16) → w t = be32 b[4 * t] b[4 * t + 1] b[4 * t + 2] b[4 * t + 3]) ∧
    (∀ t, 16 ≤ t → t < 64 →
      w t = smallSigma1 (w (t - 2)) + w (t - 7) + smallSigma0 (w (t - 15)) + w (t - 16))

/-- R92, R93: COMPRESS copies H into a..h, runs rounds 0..63, round t with K[t] and W[t], each from the values of the
round before, and adds the working variables into the hash words. -/
def Obligations.CompressionRunsSixtyFourRounds : Prop :=
  ∀ (h : Hash) (b : Block), ∃ v : Nat → Working,
    v 0 = ⟨h[0], h[1], h[2], h[3], h[4], h[5], h[6], h[7]⟩ ∧
    (∀ t < 64, ∃ k w, roundConstants[t]? = some k ∧ (schedule b)[t]? = some w ∧
      let T1 := (v t).h + bigSigma1 (v t).e + ch (v t).e (v t).f (v t).g + k + w
      let T2 := bigSigma0 (v t).a + maj (v t).a (v t).b (v t).c
      v (t + 1) = ⟨T1 + T2, (v t).a, (v t).b, (v t).c, (v t).d + T1, (v t).e, (v t).f, (v t).g⟩) ∧
    compress h b = #v[h[0] + (v 64).a, h[1] + (v 64).b, h[2] + (v 64).c, h[3] + (v 64).d,
      h[4] + (v 64).e, h[5] + (v 64).f, h[6] + (v 64).g, h[7] + (v 64).h]

/-- The spec's inference R78 (from R75): Pad(m) is m, 0x80, the least number k of zero bytes with |m| + 1 + k ≡ 56
(mod 64), and the 8-byte big-endian bit length; it is ⌊(|m| + 8) / 64⌋ + 1 blocks long. -/
def Obligations.PaddingIsLeastAndWhole : Prop :=
  ∀ m : List Byte, m.length < 2 ^ 61 →
    (∃ k : Nat, pad m = m ++ [0x80] ++ List.replicate k 0x00 ++ bytesBe64 (BitVec.ofNat 64 (8 * m.length)) ∧
      (m.length + 1 + k) % 64 = 56 ∧ (∀ j < k, (m.length + 1 + j) % 64 ≠ 56) ∧ (k + m.length) % 64 = 55) ∧
    (pad m).length = 64 * ((m.length + 8) / 64 + 1)

/-- R41: digest byte 4i + j is bits 31−8j : 24−8j of hash word i, and there are 32 bytes. -/
def Obligations.DigestIsBigEndianByWord : Prop :=
  ∀ h : Hash, (digestBytes h).length = 32 ∧ ∀ i j : Nat, (hi : i < 8) → j < 4 →
    (digestBytes h)[4 * i + j]? = some ((h[i]).extractLsb' (24 - 8 * j) 8)

/-- R40: the length suffix is the 8 bytes of tbl, bits 63:56 first; it stands at bytes 56..63 of the last block FINISH
compresses. -/
def Obligations.LengthSuffixIsBigEndianInTheLastBlock : Prop :=
  ∀ (pending : List Byte) (bits : U64), pending.length ≤ 63 →
    ∃ b, (finalBlocks pending bits).getLast? = some b ∧
      ∀ j, (hj : j < 8) → b[56 + j] = bits.extractLsb' (56 - 8 * j) 8
end

