-- ==== Sys2Proof/Laws/Memory.lean ====
section
/-! SUPPORT. Host memory (20_memory.md R47, 00_scope.md R11): what a read gives after a write, and that every memory
operation keeps the canonical form. -/

namespace Sys2Proof.Machine

theorem read_place (m : Memory) (a x : Nat) (b : Byte) :
    Memory.read (Memory.place a b m) x = if x = a then (if b = unlistedByte then m.read x else b) else m.read x := by
  unfold Memory.place
  by_cases hb : b = unlistedByte <;> by_cases hx : x = a <;> simp [hb, hx, Memory.read, eq_comm]
  · intro h; exact absurd h.symm hx

/-- An address below every listed one reads as the unlisted byte. -/
theorem read_of_lt (m : Memory) (x : Nat) (h : ∀ e ∈ m, x < e.1) : m.read x = unlistedByte := by
  induction m with
  | nil => rfl
  | cons e m ih =>
    obtain ⟨k, b⟩ := e
    have hk : x < k := h (k, b) (by simp)
    simp only [Memory.read]
    rw [if_neg (by omega)]
    exact ih fun e he => h e (by simp [he])

theorem read_write (m : Memory) (hm : m.wf) (a x : Nat) (b : Byte) :
    (m.write a b).read x = if x = a then b else m.read x := by
  induction m with
  | nil => simp only [Memory.write, read_place, Memory.read]; split <;> simp_all
  | cons e m ih =>
    obtain ⟨k, v⟩ := e
    obtain ⟨hp, hn⟩ := hm
    rw [List.pairwise_cons] at hp
    have hm' : Memory.wf m := ⟨hp.2, fun y hy => hn y (by simp [hy])⟩
    simp only [Memory.write]
    split
    · rename_i hlt
      simp only [Memory.read, ih hm']
      by_cases hx : x = a
      · subst hx; simp; omega
      · simp [hx]
    · split
      · rename_i hlt heq
        subst heq
        rw [read_place]
        by_cases hx : x = k
        · subst hx
          simp only [if_true]
          split
          · rename_i hb; rw [hb]; exact read_of_lt m x fun e he => hp.1 e he
          · rfl
        · rw [if_neg hx, if_neg hx]
          simp only [Memory.read]
          rw [if_neg (fun h => hx h.symm)]
      · rename_i hlt hne
        rw [read_place]
        by_cases hx : x = a
        · subst hx
          simp only [if_true]
          split
          · rename_i hb
            rw [hb]
            refine read_of_lt _ x fun e he => ?_
            rcases List.mem_cons.mp he with rfl | he
            · simp; omega
            · have := hp.1 e he; simp at this; omega
          · rfl
        · rw [if_neg hx, if_neg hx]

@[simp] theorem read_write_same (m : Memory) (hm : m.wf) (a : Nat) (b : Byte) : (m.write a b).read a = b := by
  simp [read_write m hm]

theorem read_write_other (m : Memory) (a x : Nat) (b : Byte) (hx : x ≠ a) :
    (m.write a b).read x = m.read x := by
  induction m with
  | nil => simp [Memory.write, read_place, hx]
  | cons e m ih =>
    obtain ⟨k, v⟩ := e
    simp only [Memory.write]
    split
    · simp only [Memory.read, ih]
    · split
      · rename_i _ heq
        subst heq
        rw [read_place, if_neg hx]
        simp only [Memory.read]
        rw [if_neg (fun h => hx h.symm)]
      · rw [read_place, if_neg hx]

theorem place_wf (m : Memory) (hm : m.wf) (a : Nat) (b : Byte) (h : ∀ e ∈ m, a < e.1) :
    Memory.wf (Memory.place a b m) := by
  unfold Memory.place
  split
  · exact hm
  · rename_i hb
    refine ⟨List.pairwise_cons.mpr ⟨fun e he => h e he, hm.1⟩, fun e he => ?_⟩
    rcases List.mem_cons.mp he with rfl | he
    · exact hb
    · exact hm.2 e he

theorem mem_place {m : Memory} {a : Nat} {b : Byte} {e : Host.Cell} (he : e ∈ Memory.place a b m) :
    e = (a, b) ∨ e ∈ m := by
  unfold Memory.place at he
  split at he
  · exact .inr he
  · exact List.mem_cons.mp he

/-- An entry after a write is the written one or one that stood there before. -/
theorem mem_write {m : Memory} {a : Nat} {b : Byte} {e : Host.Cell} (he : e ∈ m.write a b) :
    e = (a, b) ∨ e ∈ m := by
  induction m with
  | nil => exact mem_place he
  | cons c m ih =>
    obtain ⟨k, v⟩ := c
    simp only [Memory.write] at he
    split at he
    · rcases List.mem_cons.mp he with rfl | he
      · simp
      · rcases ih he with h | h <;> simp [h]
    · split at he
      · exact (mem_place he).imp_right (List.mem_cons_of_mem _)
      · exact mem_place he

theorem write_wf (m : Memory) (hm : m.wf) (a : Nat) (b : Byte) : Memory.wf (m.write a b) := by
  induction m with
  | nil => exact place_wf [] ⟨.nil, by simp⟩ a b (by simp)
  | cons e m ih =>
    obtain ⟨k, v⟩ := e
    obtain ⟨hp, hn⟩ := hm
    have hp' := List.pairwise_cons.mp hp
    have hm' : Memory.wf m := ⟨hp'.2, fun y hy => hn y (by simp [hy])⟩
    simp only [Memory.write]
    split
    · rename_i hlt
      refine ⟨List.pairwise_cons.mpr ⟨fun e he => ?_, (ih hm').1⟩, fun e he => ?_⟩
      · rcases mem_write he with rfl | he
        · exact hlt
        · exact hp'.1 e he
      · rcases List.mem_cons.mp he with rfl | he
        · exact hn _ (by simp)
        · exact (ih hm').2 e he
    · split
      · rename_i heq
        subst heq
        exact place_wf m hm' k b fun e he => hp'.1 e he
      · rename_i hlt hne
        refine place_wf _ ⟨hp, hn⟩ a b fun e he => ?_
        rcases List.mem_cons.mp he with rfl | he
        · simp; omega
        · have := hp'.1 e he; simp at this; omega

theorem write_in_space (m : Memory) (N a : Nat) (b : Byte) (hm : ∀ e ∈ m, e.1 < N) (ha : a < N) :
    ∀ e ∈ m.write a b, e.1 < N := by
  intro e he
  rcases mem_write he with rfl | he
  · exact ha
  · exact hm e he

theorem writeBytes_wf (bs : List Byte) : ∀ (m : Memory) (a : Nat), m.wf → Memory.wf (writeBytes m a bs) := by
  induction bs with
  | nil => intro m a hm; exact hm
  | cons b bs ih => intro m a hm; exact ih _ _ (write_wf m hm a b)

theorem writeBytes_in_space (bs : List Byte) : ∀ (m : Memory) (N a : Nat), (∀ e ∈ m, e.1 < N) → a + bs.length ≤ N →
    ∀ e ∈ writeBytes m a bs, e.1 < N := by
  induction bs with
  | nil => intro m N a hm _; exact hm
  | cons b bs ih =>
    intro m N a hm ha
    simp only [List.length_cons] at ha
    exact ih _ N (a + 1) (write_in_space m N a b hm (by omega)) (by omega)

/-- MemWrite changes no byte outside its range (R11, R45). -/
theorem read_writeBytes_outside (bs : List Byte) : ∀ (m : Memory) (a x : Nat), x < a ∨ a + bs.length ≤ x →
    (writeBytes m a bs).read x = m.read x := by
  induction bs with
  | nil => intro m a x _; rfl
  | cons b bs ih =>
    intro m a x hx
    simp only [List.length_cons] at hx
    rw [writeBytes, ih _ _ _ (by omega), read_write_other _ _ _ _ (by omega)]

/-- MemWrite puts byte i at address a + i (R11). -/
theorem read_writeBytes_inside (bs : List Byte) : ∀ (m : Memory) (a i : Nat), m.wf → (h : i < bs.length) →
    (writeBytes m a bs).read (a + i) = bs[i] := by
  induction bs with
  | nil => intro m a i _ h; simp at h
  | cons b bs ih =>
    intro m a i hm h
    cases i with
    | zero =>
      rw [writeBytes, read_writeBytes_outside _ _ _ _ (by omega)]
      simp [read_write m hm]
    | succ i =>
      rw [writeBytes, show a + (i + 1) = a + 1 + i by omega, ih _ _ _ (write_wf m hm a b) (by simpa using h)]
      simp

@[simp] theorem readBytes_length (m : Memory) (n : Nat) : ∀ a, (readBytes m a n).length = n := by
  induction n with
  | zero => intro a; rfl
  | succ n ih => intro a; simp [readBytes, ih]

theorem readBytes_append (m : Memory) (n k : Nat) : ∀ a,
    readBytes m a (n + k) = readBytes m a n ++ readBytes m (a + n) k := by
  induction n with
  | zero => intro a; simp [readBytes]
  | succ n ih =>
    intro a
    rw [show n + 1 + k = (n + k) + 1 by omega, readBytes, ih, readBytes, show a + 1 + n = a + (n + 1) by omega]
    rfl

/-- Byte i of MemRead is the byte at a + i (R11). -/
theorem getElem_readBytes (m : Memory) (n : Nat) : ∀ (a i : Nat) (h : i < (readBytes m a n).length),
    (readBytes m a n)[i] = m.read (a + i) := by
  induction n with
  | zero => intro a i h; simp [readBytes] at h
  | succ n ih =>
    intro a i h
    cases i with
    | zero => simp [readBytes]
    | succ i => simp only [readBytes, List.getElem_cons_succ, ih]; congr 1; omega

theorem readBytes_congr (m m' : Memory) (n : Nat) : ∀ a, (∀ x, a ≤ x → x < a + n → m.read x = m'.read x) →
    readBytes m a n = readBytes m' a n := by
  induction n with
  | zero => intro a _; rfl
  | succ n ih =>
    intro a h
    rw [readBytes, readBytes, h a (by omega) (by omega), ih (a + 1) fun x h1 h2 => h x (by omega) (by omega)]

/-- Reading back what MemWrite wrote. -/
theorem readBytes_writeBytes (m : Memory) (hm : m.wf) (a : Nat) (bs : List Byte) :
    readBytes (writeBytes m a bs) a bs.length = bs := by
  apply List.ext_getElem
  · simp
  · intro i h1 h2
    rw [getElem_readBytes, read_writeBytes_inside bs m a i hm h2]

/-- The canonical form is canonical: two memories in it that read alike are the same data. -/
theorem memory_ext : ∀ (m m' : Memory), m.wf → m'.wf → (∀ a, m.read a = m'.read a) → m = m' := by
  intro m
  induction m with
  | nil =>
    intro m' _ h' h
    cases m' with
    | nil => rfl
    | cons e m' =>
      have := h e.1
      simp only [Memory.read, if_true] at this
      exact absurd this.symm (h'.2 e (by simp))
  | cons e m ih =>
    intro m' hw hw' h
    obtain ⟨k, v⟩ := e
    have hp := List.pairwise_cons.mp hw.1
    cases m' with
    | nil =>
      have := h k
      simp only [Memory.read, if_true] at this
      exact absurd this (hw.2 (k, v) (by simp))
    | cons e' m' =>
      obtain ⟨k', v'⟩ := e'
      have hp' := List.pairwise_cons.mp hw'.1
      have hkk : k = k' := by
        rcases Nat.lt_trichotomy k k' with hlt | heq | hgt
        · have := h k
          simp only [Memory.read, if_true] at this
          rw [if_neg (by omega), read_of_lt m' k fun e he => by have := hp'.1 e he; simp at this; omega] at this
          exact absurd this (hw.2 (k, v) (by simp))
        · exact heq
        · have := h k'
          simp only [Memory.read, if_true] at this
          rw [if_neg (by omega), read_of_lt m k' fun e he => by have := hp.1 e he; simp at this; omega] at this
          exact absurd this.symm (hw'.2 (k', v') (by simp))
      subst hkk
      have hv : v = v' := by simpa [Memory.read] using h k
      subst hv
      congr 1
      refine ih m' ⟨hp.2, fun y hy => hw.2 y (by simp [hy])⟩ ⟨hp'.2, fun y hy => hw'.2 y (by simp [hy])⟩ fun a => ?_
      by_cases ha : a = k
      · subst ha
        rw [read_of_lt m a hp.1, read_of_lt m' a hp'.1]
      · have := h a
        simp only [Memory.read] at this
        rwa [if_neg (fun h => ha h.symm), if_neg (fun h => ha h.symm)] at this

end Sys2Proof.Machine
end

