-- ==== Sys2Proof/Laws/Operands.lean ====
section
/-! SUPPORT. What each operand check answers (60_exceptions.md R100–R105), said once: when it answers none, and what it
reports when it does not. -/

namespace Sys2Proof.Machine

theorem firstRefused_eq_none (s : State) (k : AccessKind) (n : Nat) : ∀ a,
    s.firstRefused k a n = none ↔ ∀ i < n, s.admits k (a + i) = true := by
  induction n with
  | zero => intro a; simp [State.firstRefused]
  | succ n ih =>
    intro a
    simp only [State.firstRefused]
    constructor
    · intro h i hi
      split at h
      · rename_i ha
        cases i with
        | zero => exact ha
        | succ i =>
          have := (ih (a + 1)).mp h i (by omega)
          rwa [show a + 1 + i = a + (i + 1) by omega] at this
      · exact absurd h (by simp)
    · intro h
      rw [if_pos (by simpa using h 0 (by omega)), ih]
      intro i hi
      rw [show a + 1 + i = a + (i + 1) by omega]
      exact h (i + 1) (by omega)

theorem firstRefused_eq_some (s : State) (k : AccessKind) (b n : Nat) : ∀ a,
    s.firstRefused k a n = some b ↔
      a ≤ b ∧ b < a + n ∧ s.admits k b = false ∧ ∀ x, a ≤ x → x < b → s.admits k x = true := by
  induction n with
  | zero => intro a; simp [State.firstRefused]; omega
  | succ n ih =>
    intro a
    simp only [State.firstRefused]
    by_cases ha : s.admits k a = true
    · rw [if_pos ha, ih]
      constructor
      · rintro ⟨h1, h2, h3, h4⟩
        refine ⟨by omega, by omega, h3, fun x hx hb => ?_⟩
        by_cases hxa : x = a
        · rw [hxa]; exact ha
        · exact h4 x (by omega) hb
      · rintro ⟨h1, h2, h3, h4⟩
        have hne : b ≠ a := by rintro rfl; simp [ha] at h3
        exact ⟨by omega, by omega, h3, fun x hx hb => h4 x (by omega) hb⟩
    · rw [if_neg ha]
      constructor
      · intro h
        obtain rfl : a = b := by simpa using h
        exact ⟨le_refl _, by omega, by simpa using ha, fun x hx hb => by omega⟩
      · rintro ⟨h1, h2, h3, h4⟩
        by_cases hab : a = b
        · rw [hab]
        · exact absurd (h4 a (le_refl _) (by omega)) ha

/-- Holding Admit as a list of refused regions loses no platform: over any address space, every predicate on
(address, kind) is the Admit of some list (log 1). -/
theorem exists_refused_of_predicate (p : AccessKind → Nat → Bool) (n : Nat) :
    ∃ rs : List Region, ∀ a < n, ∀ k, (!rs.any (·.covers k a)) = p k a := by
  induction n with
  | zero => exact ⟨[], by simp⟩
  | succ n ih =>
    obtain ⟨rs, h⟩ := ih
    refine ⟨(if p .read n then [] else [⟨.read, n, n + 1⟩]) ++ (if p .write n then [] else [⟨.write, n, n + 1⟩]) ++
      rs.map (fun r => ⟨r.kind, r.lo, min r.hi n⟩), fun a ha k => ?_⟩
    have hcov : ∀ a k, (rs.map (fun r => (⟨r.kind, r.lo, min r.hi n⟩ : Region))).any (·.covers k a) =
        (decide (a < n) && rs.any (·.covers k a)) := by
      intro a k
      rw [Bool.eq_iff_iff]
      simp only [List.any_map, List.any_eq_true, Function.comp, Region.covers, Bool.and_eq_true, decide_eq_true_eq]
      constructor
      · rintro ⟨r, hr, ⟨hk, hlo⟩, hhi⟩
        exact ⟨by omega, r, hr, ⟨hk, hlo⟩, by omega⟩
      · rintro ⟨hn, r, hr, ⟨hk, hlo⟩, hhi⟩
        exact ⟨r, hr, ⟨hk, hlo⟩, by omega⟩
    rw [List.any_append, List.any_append, hcov]
    by_cases han : a = n
    · subst han
      cases k <;> cases hr : p .read a <;> cases hw : p .write a <;> simp [Region.covers]
    · have hlt : a < n := by omega
      have := h a hlt k
      rw [← this]
      cases p .read n <;> cases p .write n <;> simp [Region.covers, hlt, Nat.not_le.mpr hlt]

theorem rangeFault_eq_none (a : Addr) (n : Nat) (s : State) : rangeFault a n s = none ↔ s.InSpace a n := by
  simp [rangeFault, State.InSpace]

theorem rangeFault_of_gt {a : Addr} {n : Nat} {s : State} (h : 2 ^ s.addrWidth < a.toNat + n) :
    rangeFault a n s = some { cause := .addressRange, faddr := a } := by
  simp [rangeFault, h]

theorem admitFault_eq_none (k : AccessKind) (a : Addr) (n : Nat) (s : State) :
    admitFault k a n s = none ↔ s.Admits k a n := by
  rw [State.Admits, ← firstRefused_eq_none]
  unfold admitFault
  cases s.firstRefused k a.toNat n <;> simp

/-- MEMORY_FAULT reports the lowest refused address (R105). -/
theorem admitFault_of_refused {k : AccessKind} {a : Addr} {n b : Nat} {s : State} (h1 : a.toNat ≤ b)
    (h2 : b < a.toNat + n) (h3 : s.admits k b = false) (h4 : ∀ x, a.toNat ≤ x → x < b → s.admits k x = true) :
    admitFault k a n s = some { cause := .memoryFault, faddr := BitVec.ofNat 64 b } := by
  have := (firstRefused_eq_some s k b n a.toNat).mpr ⟨h1, h2, h3, h4⟩
  simp [admitFault, this]

theorem lengthFault_eq_none (len : U64) (sl : Slot) :
    lengthFault len sl = none ↔ sl.tbl.toNat + 8 * len.toNat < 2 ^ 64 := by
  simp [lengthFault]

theorem contextFault_eq_none (c : BitVec 4) (s : State) : contextFault c s = none ↔ c.toNat < s.slots.length := by
  unfold contextFault State.slot?
  cases h : s.slots[c.toNat]? with
  | none => simpa using List.getElem?_eq_none_iff.mp h
  | some sl => simpa using (List.getElem?_eq_some_iff.mp h).1

theorem contextFault_of_ge {c : BitVec 4} {s : State} (h : s.slots.length ≤ c.toNat) :
    contextFault c s = some { cause := .badContext, faddr := 0 } := by
  simp [contextFault, State.slot?, List.getElem?_eq_none_iff.mpr h]

theorem activeSlotFault_of_ge {c : BitVec 4} {s : State} (h : s.slots.length ≤ c.toNat)
    (rest : Slot → Option FaultReport) :
    activeSlotFault c s rest = some { cause := .badContext, faddr := 0 } := by
  simp [activeSlotFault, State.slot?, List.getElem?_eq_none_iff.mpr h]

theorem activeSlotFault_of_uninit {c : BitVec 4} {s : State} {sl : Slot} (h : s.slots[c.toNat]? = some sl)
    (hp : sl.phase = .uninit) (rest : Slot → Option FaultReport) :
    activeSlotFault c s rest = some { cause := .contextUninit, faddr := 0 } := by
  simp [activeSlotFault, State.slot?, h, hp]

theorem activeSlotFault_of_consumed {c : BitVec 4} {s : State} {sl : Slot} (h : s.slots[c.toNat]? = some sl)
    (hp : sl.phase = .consumed) (rest : Slot → Option FaultReport) :
    activeSlotFault c s rest = some { cause := .contextConsumed, faddr := 0 } := by
  simp [activeSlotFault, State.slot?, h, hp]

theorem activeSlotFault_of_active {c : BitVec 4} {s : State} {sl : Slot} (h : s.slots[c.toNat]? = some sl)
    (hp : sl.phase = .active) (rest : Slot → Option FaultReport) : activeSlotFault c s rest = rest sl := by
  simp [activeSlotFault, State.slot?, h, hp]

theorem activeSlotFault_eq_none (c : BitVec 4) (s : State) (rest : Slot → Option FaultReport) :
    activeSlotFault c s rest = none ↔ ∃ sl, s.slots[c.toNat]? = some sl ∧ sl.phase = .active ∧ rest sl = none := by
  unfold activeSlotFault State.slot?
  cases h : s.slots[c.toNat]? with
  | none => simp
  | some sl => cases hp : sl.phase <;> simp [hp]

theorem orElse_eq_none {α : Type} (x y : Option α) : (x <|> y) = none ↔ x = none ∧ y = none := by
  cases x <;> simp

/-- When APPEND raises no fault (R73). -/
theorem appendFault_eq_none (c : BitVec 4) (src : Addr) (len : U64) (s : State) :
    appendFault c src len s = none ↔ ∃ sl, s.slots[c.toNat]? = some sl ∧ sl.phase = .active ∧
      sl.tbl.toNat + 8 * len.toNat < 2 ^ 64 ∧
      (len = 0 ∨ s.InSpace src len.toNat ∧ s.Admits .read src len.toNat) := by
  rw [appendFault, activeSlotFault_eq_none]
  simp only [orElse_eq_none, lengthFault_eq_none]
  by_cases h : len = 0
  · simp [h]
  · simp only [h, if_false, orElse_eq_none, rangeFault_eq_none, admitFault_eq_none, false_or]

/-- When FINISH raises no fault (R75). -/
theorem finishFault_eq_none (c : BitVec 4) (dst : Addr) (s : State) :
    finishFault c dst s = none ↔ ∃ sl, s.slots[c.toNat]? = some sl ∧ sl.phase = .active ∧
      s.InSpace dst 32 ∧ s.Admits .write dst 32 := by
  rw [finishFault, activeSlotFault_eq_none]
  simp only [orElse_eq_none, rangeFault_eq_none, admitFault_eq_none]

/-- When DIGEST raises no fault (R95). -/
theorem digestFault_eq_none (src dst : Addr) (s : State) :
    digestFault src dst s = none ↔
      s.InSpace src 32 ∧ s.InSpace dst 32 ∧ s.Admits .read src 32 ∧ s.Admits .write dst 32 := by
  simp only [digestFault, orElse_eq_none, rangeFault_eq_none, admitFault_eq_none]

/-- When SELF_DIGEST raises no fault (R96). -/
theorem selfDigestFault_eq_none (src : Addr) (s : State) :
    selfDigestFault src s = none ↔ s.InSpace src 32 ∧ s.Admits .read src 32 ∧ s.Admits .write src 32 := by
  simp only [selfDigestFault, orElse_eq_none, rangeFault_eq_none, admitFault_eq_none]

end Sys2Proof.Machine
end

