-- ==== Sys2Proof/Laws/Sha.lean ====
section
/-! SUPPORT. Bytes, blocks and padding (20_memory.md R39–R41, 41_context_commands.md R78), and what APPEND's byte loop
does to a slot (R73, R22), said once. -/

namespace Sys2Proof.Machine

@[simp] theorem bytesBe32_length (w : Word) : (bytesBe32 w).length = 4 := rfl

@[simp] theorem bytesBe64_length (v : U64) : (bytesBe64 v).length = 8 := rfl

@[simp] theorem zeroBytes_length (k : Nat) : (zeroBytes k).length = k := List.length_replicate

@[simp] theorem digestBytes_length (h : Hash) : (digestBytes h).length = 32 := by simp [digestBytes]

@[simp] theorem sha256_length (m : List Byte) : (sha256 m).length = 32 := digestBytes_length _

@[simp] theorem oneBlockDigest_length (m : List Byte) : (oneBlockDigest m).length = 32 := digestBytes_length _

theorem blockOfBytes_toList {l : List Byte} (h : l.length = 64) : (blockOfBytes l).toList = l := by
  simp only [blockOfBytes, Vector.toList_mk]
  exact List.take_left' h

theorem blockOfBytes_of_toList (b : Block) : blockOfBytes b.toList = b :=
  Vector.toList_inj.mp (blockOfBytes_toList (by simp))

@[simp] theorem blocksOf_length (l : List Byte) : (blocksOf l).length = l.length / 64 := by simp [blocksOf]

theorem blocksOf_of_lt {l : List Byte} (h : l.length < 64) : blocksOf l = [] := by
  simp [blocksOf, Nat.div_eq_of_lt h]

/-- The first whole block comes off the front. -/
theorem blocksOf_cons {l r : List Byte} (h : l.length = 64) : blocksOf (l ++ r) = blockOfBytes l :: blocksOf r := by
  have hlen : (l ++ r).length / 64 = r.length / 64 + 1 := by rw [List.length_append, h]; omega
  unfold blocksOf
  rw [hlen, List.range_succ_eq_map, List.map_cons, List.map_map]
  congr 1
  · simp [List.take_left' h]
  · apply List.map_congr_left
    intro i _
    have hd : (l ++ r).drop (64 * (i + 1)) = r.drop (64 * i) := by
      rw [List.drop_append, List.drop_of_length_le (by omega), List.nil_append]
      congr 1
      omega
    simp only [Function.comp, Nat.succ_eq_add_one, hd]

theorem blocksOf_append (r : List Byte) : ∀ (n : Nat) (l : List Byte), l.length = 64 * n →
    blocksOf (l ++ r) = blocksOf l ++ blocksOf r := by
  intro n
  induction n with
  | zero =>
    intro l h
    obtain rfl := List.length_eq_zero_iff.mp (by simpa using h)
    simp [blocksOf]
  | succ n ih =>
    intro l h
    have h64 : (l.take 64).length = 64 := by simp; omega
    have hd : (l.drop 64).length = 64 * n := by simp; omega
    have e1 : l ++ r = l.take 64 ++ (l.drop 64 ++ r) := by rw [← List.append_assoc, List.take_append_drop]
    rw [e1, blocksOf_cons h64, ih _ hd]
    conv_rhs => rw [← List.take_append_drop 64 l, blocksOf_cons h64]
    rfl

@[simp] theorem compressAll_nil (h : Hash) : compressAll h [] = h := rfl

@[simp] theorem compressAll_cons (h : Hash) (b : Block) (bs : List Block) :
    compressAll h (b :: bs) = compressAll (compress h b) bs := rfl

theorem compressAll_append (h : Hash) (xs ys : List Block) :
    compressAll h (xs ++ ys) = compressAll (compressAll h xs) ys := List.foldl_append

theorem pending_length {sl : Slot} (h : sl.blen ≤ 64) : sl.pending.length = sl.blen := by
  simp [Slot.pending]; omega

/-- Writing the next byte of the buffer appends it to the pending bytes. -/
theorem take_setIfInBounds (buf : Block) (n : Nat) (b : Byte) (h : n < 64) :
    (buf.setIfInBounds n b).toList.take (n + 1) = buf.toList.take n ++ [b] := by
  have hl : buf.toList.length = 64 := by simp
  have hs : (buf.setIfInBounds n b).toList = buf.toList.set n b := by
    rcases buf with ⟨⟨l⟩, hb⟩
    simp
  rw [hs, List.take_add_one, List.take_set_of_le (le_refl n)]
  congr 1
  simp [hl, h]

theorem absorbByte_of_lt {sl : Slot} (b : Byte) (h : sl.blen + 1 < 64) :
    sl.absorbByte b = { sl with buf := sl.buf.setIfInBounds sl.blen b, blen := sl.blen + 1 } := by
  simp only [Slot.absorbByte]
  rw [if_neg (by omega)]

theorem absorbByte_of_full {sl : Slot} (b : Byte) (h : sl.blen + 1 = 64) :
    sl.absorbByte b =
      { sl with h := compress sl.h (sl.buf.setIfInBounds sl.blen b), buf := sl.buf.setIfInBounds sl.blen b,
                blen := 0 } := by
  simp only [Slot.absorbByte]
  rw [if_pos h]

/-- What APPEND's byte loop does to a slot: the whole blocks of what was pending and what came are compressed in stream
order, and the rest is pending (R73, R81). -/
theorem foldl_absorbByte (bs : List Byte) : ∀ (sl : Slot), sl.blen ≤ 63 →
    (bs.foldl Slot.absorbByte sl).phase = sl.phase ∧
    (bs.foldl Slot.absorbByte sl).tbl = sl.tbl ∧
    (bs.foldl Slot.absorbByte sl).blen = (sl.blen + bs.length) % 64 ∧
    (bs.foldl Slot.absorbByte sl).h = compressAll sl.h (blocksOf (sl.pending ++ bs)) ∧
    (bs.foldl Slot.absorbByte sl).pending =
      (sl.pending ++ bs).drop (64 * ((sl.pending ++ bs).length / 64)) := by
  induction bs with
  | nil =>
    intro sl h
    have hp : sl.pending.length = sl.blen := pending_length (by omega)
    have h0 : sl.blen / 64 = 0 := Nat.div_eq_of_lt (by omega)
    simp only [List.foldl_nil, List.append_nil, List.length_nil, Nat.add_zero, true_and]
    refine ⟨by omega, ?_, ?_⟩
    · rw [blocksOf_of_lt (by omega)]; rfl
    · rw [hp, h0]; simp
  | cons b bs ih =>
    intro sl h
    have hp : sl.pending.length = sl.blen := pending_length (by omega)
    rw [List.foldl_cons]
    by_cases hfull : sl.blen + 1 = 64
    · have habs := absorbByte_of_full b hfull
      have hb0 : (sl.absorbByte b).blen = 0 := by rw [habs]
      have hpend : (sl.absorbByte b).pending = [] := by simp [Slot.pending, hb0]
      have hbuf : (sl.buf.setIfInBounds sl.blen b).toList = sl.pending ++ [b] := by
        have := take_setIfInBounds sl.buf sl.blen b (by omega)
        rwa [hfull, List.take_of_length_le (by simp)] at this
      have h64 : (sl.pending ++ [b]).length = 64 := by simp [hp, hfull]
      obtain ⟨i1, i2, i3, i4, i5⟩ := ih (sl.absorbByte b) (by omega)
      rw [hpend, List.nil_append] at i4 i5
      have happ : sl.pending ++ b :: bs = (sl.pending ++ [b]) ++ bs := by simp
      have hblk : blockOfBytes (sl.pending ++ [b]) = sl.buf.setIfInBounds sl.blen b := by
        rw [← hbuf, blockOfBytes_of_toList]
      refine ⟨by rw [i1, habs], by rw [i2, habs], ?_, ?_, ?_⟩
      · rw [i3, hb0, List.length_cons]; omega
      · rw [i4, happ, blocksOf_cons h64, hblk, habs]; rfl
      · rw [i5, happ, List.length_append, h64,
          show 64 * ((64 + bs.length) / 64) = 64 + 64 * (bs.length / 64) by omega,
          ← List.drop_drop, List.drop_left' h64]
    · have habs := absorbByte_of_lt b (show sl.blen + 1 < 64 by omega)
      have hb1 : (sl.absorbByte b).blen = sl.blen + 1 := by rw [habs]
      have hpend : (sl.absorbByte b).pending = sl.pending ++ [b] := by
        rw [habs]; exact take_setIfInBounds sl.buf sl.blen b (by omega)
      obtain ⟨i1, i2, i3, i4, i5⟩ := ih (sl.absorbByte b) (by omega)
      have happ : sl.pending ++ [b] ++ bs = sl.pending ++ b :: bs := by simp
      rw [hpend, happ] at i4 i5
      refine ⟨by rw [i1, habs], by rw [i2, habs], ?_, ?_, i5⟩
      · rw [i3, hb1, List.length_cons]; omega
      · rw [i4, habs]

/-- Absorbing two byte strings in turn is absorbing their concatenation (R74). -/
theorem absorb_append (sl : Slot) (xs ys : List Byte) : (sl.absorb xs).absorb ys = sl.absorb (xs ++ ys) := by
  have key : ∀ (zs : List Byte) (x : Slot) (v : U64),
      zs.foldl Slot.absorbByte { x with tbl := v } = { zs.foldl Slot.absorbByte x with tbl := v } := by
    intro zs
    induction zs with
    | nil => intro x v; rfl
    | cons z zs ih =>
      intro x v
      rw [List.foldl_cons, List.foldl_cons, ← ih]
      congr 1
      simp only [Slot.absorbByte]
      split <;> rfl
  have htbl : ∀ (zs : List Byte) (x : Slot), (zs.foldl Slot.absorbByte x).tbl = x.tbl := by
    intro zs
    induction zs with
    | nil => intro x; rfl
    | cons z zs ih =>
      intro x
      rw [List.foldl_cons, ih]
      simp only [Slot.absorbByte]
      split <;> rfl
  have hcount : ∀ (n k : Nat) (v : U64),
      v + BitVec.ofNat 64 (8 * n) + BitVec.ofNat 64 (8 * k) = v + BitVec.ofNat 64 (8 * (n + k)) := by
    intro n k v
    rw [Nat.mul_add, BitVec.ofNat_add, BitVec.add_assoc]
  have heq : ∀ (x : Slot) (zs : List Byte), x.absorb zs =
      { zs.foldl Slot.absorbByte x with tbl := x.tbl + BitVec.ofNat 64 (8 * zs.length) } := by
    intro x zs
    simp only [Slot.absorb, htbl]
  rw [heq (sl.absorb xs) ys, heq sl xs, key, heq sl (xs ++ ys), List.foldl_append, List.length_append, ← hcount]

/-- APPEND of the bytes `bs` extends the message an ACTIVE slot holds (R22, R73). -/
theorem holds_absorb {sl : Slot} {m : List Byte} (h : sl.Holds m) (bs : List Byte)
    (hlen : sl.tbl.toNat + 8 * bs.length < 2 ^ 64) : (sl.absorb bs).Holds (m ++ bs) := by
  obtain ⟨h1, h2, h3, h4, h5⟩ := h
  have hb : sl.blen ≤ 63 := by omega
  obtain ⟨a1, a2, a3, a4, a5⟩ := foldl_absorbByte bs sl hb
  have hm : m.take (64 * (m.length / 64)) ++ sl.pending = m := by rw [h5, List.take_append_drop]
  have hl : (m.take (64 * (m.length / 64))).length = 64 * (m.length / 64) := by simp; omega
  have hsplit : m ++ bs = m.take (64 * (m.length / 64)) ++ (sl.pending ++ bs) := by
    rw [← List.append_assoc, hm]
  have hbm : blocksOf (m.take (64 * (m.length / 64))) = blocksOf m := by
    conv_rhs => rw [← hm, blocksOf_append _ _ _ hl]
    rw [blocksOf_of_lt (l := sl.pending) (by rw [pending_length (by omega)]; omega), List.append_nil]
  refine ⟨by rw [← h1]; exact a1, ?_, ?_, ?_, ?_⟩
  · show (BitVec.toNat _) = _
    simp only [Slot.absorb, a2, BitVec.toNat_add, BitVec.toNat_ofNat, List.length_append]
    omega
  · show (bs.foldl Slot.absorbByte sl).blen = _
    rw [a3, h3, List.length_append]; omega
  · show (bs.foldl Slot.absorbByte sl).h = _
    rw [a4, h4, hsplit, blocksOf_append _ _ _ hl, compressAll_append, hbm]
  · show (bs.foldl Slot.absorbByte sl).pending = _
    rw [a5]
    conv_rhs => rw [hsplit]
    have hpl : sl.pending.length = m.length % 64 := by rw [pending_length (by omega), h3]
    rw [List.length_append, List.length_append, List.length_append, hpl, hl,
      show 64 * ((64 * (m.length / 64) + (m.length % 64 + bs.length)) / 64) =
        64 * (m.length / 64) + 64 * ((m.length % 64 + bs.length) / 64) by omega,
      ← List.drop_drop, List.drop_left' hl]

/-- A slot just initialised holds the empty message (R72). -/
theorem initial_holds : Slot.initial.Holds [] where
  phase_active := rfl
  tbl_eq := rfl
  blen_eq := rfl
  h_eq := rfl
  pending_eq := rfl

theorem pad_length (m : List Byte) : (pad m).length = 64 * ((m.length + 8) / 64 + 1) := by
  simp only [pad, List.length_append, List.length_cons, List.length_nil, zeroBytes_length, bytesBe64_length]
  omega

/-- FINISH compresses one block, or two when 56 or more bytes are pending (R75). -/
theorem finalBlocks_length (pending : List Byte) (bits : U64) :
    (finalBlocks pending bits).length = if pending.length ≤ 55 then 1 else 2 := by
  unfold finalBlocks
  simp only [List.length_append, List.length_cons, List.length_nil]
  split <;> split <;> simp_all <;> omega

/-- FINISH's blocks are the rest of the padded message (R75, R78). -/
theorem blocksOf_pad (m : List Byte) :
    blocksOf (pad m) = blocksOf m ++
      finalBlocks (m.drop (64 * (m.length / 64))) (BitVec.ofNat 64 (8 * m.length)) := by
  set q := m.length / 64 with hq
  have hl : (m.take (64 * q)).length = 64 * q := by simp; omega
  have hp : (m.drop (64 * q)).length = m.length % 64 := by simp; omega
  have hbm : blocksOf m = blocksOf (m.take (64 * q)) := by
    conv_lhs => rw [← List.take_append_drop (64 * q) m, blocksOf_append _ _ _ hl]
    rw [blocksOf_of_lt (l := m.drop (64 * q)) (by omega), List.append_nil]
  set p := m.drop (64 * q) with hpd
  set suffix := bytesBe64 (BitVec.ofNat 64 (8 * m.length)) with hsuf
  have hs : suffix.length = 8 := rfl
  have hsplit : pad m = m.take (64 * q) ++
      (p ++ [0x80] ++ zeroBytes ((119 - m.length % 64) % 64) ++ suffix) := by
    unfold pad
    conv_lhs => rw [← List.take_append_drop (64 * q) m]
    simp only [List.append_assoc]
    rw [List.take_append_drop]
  rw [hsplit, blocksOf_append _ _ _ hl, hbm]
  congr 1
  unfold finalBlocks
  simp only [List.length_append, List.length_cons, List.length_nil, hp]
  have single : ∀ l : List Byte, l.length = 64 → blocksOf l = [blockOfBytes l] := by
    intro l h
    have := blocksOf_cons (r := []) h
    rwa [List.append_nil, blocksOf_of_lt (l := []) (by simp)] at this
  split
  · rename_i h
    have hz : (119 - m.length % 64) % 64 = (63 - m.length % 64) + 56 := by omega
    rw [hz]
    have hz2 : zeroBytes (63 - m.length % 64 + 56) = zeroBytes (63 - m.length % 64) ++ zeroBytes 56 := by
      simp [zeroBytes, List.replicate_add]
    rw [hz2]
    have e : p ++ [0x80] ++ (zeroBytes (63 - m.length % 64) ++ zeroBytes 56) ++ suffix =
        (p ++ [0x80] ++ zeroBytes (63 - m.length % 64)) ++ (zeroBytes 56 ++ suffix) := by simp
    rw [e, blocksOf_cons (by simp [hp]; omega), single _ (by simp [hs])]
    have : 64 - (m.length % 64 + (0 + 1)) = 63 - m.length % 64 := by omega
    rw [this]
  · rename_i h
    have hz : (119 - m.length % 64) % 64 = 56 - (m.length % 64 + (0 + 1)) := by omega
    rw [hz, single _ (by simp [hp, hs]; omega)]

/-- FINISH of a slot that holds `m` computes SHA256(m) (R79). -/
theorem finalHash_of_holds {sl : Slot} {m : List Byte} (h : sl.Holds m) :
    digestBytes sl.finalHash = sha256 m := by
  have ht : sl.tbl = BitVec.ofNat 64 (8 * m.length) := by
    rw [← h.tbl_eq, BitVec.ofNat_toNat, BitVec.setWidth_eq]
  change digestBytes (compressAll sl.h (finalBlocks sl.pending sl.tbl)) = _
  unfold sha256
  rw [h.pending_eq, ht, h.h_eq, blocksOf_pad, compressAll_append]

/-- For a 32-byte message the padded message is one block (R95). -/
theorem oneBlockDigest_eq_sha256 {m : List Byte} (h : m.length = 32) : oneBlockDigest m = sha256 m := by
  have hb : blocksOf (pad m) = [blockOfBytes (m ++ [0x80] ++ zeroBytes 23 ++ bytesBe64 256)] := by
    have := blocksOf_cons (l := m ++ [0x80] ++ zeroBytes 23 ++ bytesBe64 256) (r := []) (by simp [h])
    rw [List.append_nil, blocksOf_of_lt (l := []) (by simp)] at this
    rw [← this]
    congr 1
    simp [pad, h]
  unfold oneBlockDigest sha256
  rw [hb]
  rfl

end Sys2Proof.Machine
end

