-- ==== Sys2Proof/Laws/State.lean ====
section
/-! SUPPORT. One lemma per field per update of State, all true by rfl, so that no later proof unfolds a record update. -/

namespace Sys2Proof.Machine

@[simp] theorem raise_addrWidth (s : State) (cw : Word) (f : FaultReport) :
    (s.raise cw f).addrWidth = s.addrWidth := rfl
@[simp] theorem raise_refused (s : State) (cw : Word) (f : FaultReport) :
    (s.raise cw f).refused = s.refused := rfl
@[simp] theorem raise_slots (s : State) (cw : Word) (f : FaultReport) :
    (s.raise cw f).slots = s.slots := rfl
@[simp] theorem raise_status (s : State) (cw : Word) (f : FaultReport) :
    (s.raise cw f).status = faultStatus f.cause := rfl
@[simp] theorem raise_fcmd (s : State) (cw : Word) (f : FaultReport) :
    (s.raise cw f).fcmd = cw := rfl
@[simp] theorem raise_faddr (s : State) (cw : Word) (f : FaultReport) :
    (s.raise cw f).faddr = f.faddr := rfl
@[simp] theorem raise_mem (s : State) (cw : Word) (f : FaultReport) :
    (s.raise cw f).mem = s.mem := rfl
@[simp] theorem raise_inbox (s : State) (cw : Word) (f : FaultReport) :
    (s.raise cw f).inbox = s.inbox := rfl
@[simp] theorem raise_replies (s : State) (cw : Word) (f : FaultReport) :
    (s.raise cw f).replies = s.replies := rfl
@[simp] theorem raise_freeCount (s : State) (cw : Word) (f : FaultReport) :
    (s.raise cw f).freeCount = s.freeCount := rfl

@[simp] theorem withFault_addrWidth (s : State) (st cw : Word) (a : Addr) :
    (s.withFault st cw a).addrWidth = s.addrWidth := rfl
@[simp] theorem withFault_refused (s : State) (st cw : Word) (a : Addr) :
    (s.withFault st cw a).refused = s.refused := rfl
@[simp] theorem withFault_slots (s : State) (st cw : Word) (a : Addr) :
    (s.withFault st cw a).slots = s.slots := rfl
@[simp] theorem withFault_status (s : State) (st cw : Word) (a : Addr) :
    (s.withFault st cw a).status = st := rfl
@[simp] theorem withFault_fcmd (s : State) (st cw : Word) (a : Addr) :
    (s.withFault st cw a).fcmd = cw := rfl
@[simp] theorem withFault_faddr (s : State) (st cw : Word) (a : Addr) :
    (s.withFault st cw a).faddr = a := rfl
@[simp] theorem withFault_mem (s : State) (st cw : Word) (a : Addr) :
    (s.withFault st cw a).mem = s.mem := rfl
@[simp] theorem withFault_inbox (s : State) (st cw : Word) (a : Addr) :
    (s.withFault st cw a).inbox = s.inbox := rfl
@[simp] theorem withFault_replies (s : State) (st cw : Word) (a : Addr) :
    (s.withFault st cw a).replies = s.replies := rfl
@[simp] theorem withFault_freeCount (s : State) (st cw : Word) (a : Addr) :
    (s.withFault st cw a).freeCount = s.freeCount := rfl

@[simp] theorem updateSlot_addrWidth (s : State) (c : BitVec 4) (f : Slot → Slot) :
    (s.updateSlot c f).addrWidth = s.addrWidth := rfl
@[simp] theorem updateSlot_refused (s : State) (c : BitVec 4) (f : Slot → Slot) :
    (s.updateSlot c f).refused = s.refused := rfl
@[simp] theorem updateSlot_slots (s : State) (c : BitVec 4) (f : Slot → Slot) :
    (s.updateSlot c f).slots = s.slots.modify c.toNat f := rfl
@[simp] theorem updateSlot_status (s : State) (c : BitVec 4) (f : Slot → Slot) :
    (s.updateSlot c f).status = s.status := rfl
@[simp] theorem updateSlot_fcmd (s : State) (c : BitVec 4) (f : Slot → Slot) :
    (s.updateSlot c f).fcmd = s.fcmd := rfl
@[simp] theorem updateSlot_faddr (s : State) (c : BitVec 4) (f : Slot → Slot) :
    (s.updateSlot c f).faddr = s.faddr := rfl
@[simp] theorem updateSlot_mem (s : State) (c : BitVec 4) (f : Slot → Slot) :
    (s.updateSlot c f).mem = s.mem := rfl
@[simp] theorem updateSlot_inbox (s : State) (c : BitVec 4) (f : Slot → Slot) :
    (s.updateSlot c f).inbox = s.inbox := rfl
@[simp] theorem updateSlot_replies (s : State) (c : BitVec 4) (f : Slot → Slot) :
    (s.updateSlot c f).replies = s.replies := rfl
@[simp] theorem updateSlot_freeCount (s : State) (c : BitVec 4) (f : Slot → Slot) :
    (s.updateSlot c f).freeCount = s.freeCount := rfl

@[simp] theorem answer_addrWidth (s : State) (r : Reply) :
    (s.answer r).addrWidth = s.addrWidth := rfl
@[simp] theorem answer_refused (s : State) (r : Reply) :
    (s.answer r).refused = s.refused := rfl
@[simp] theorem answer_slots (s : State) (r : Reply) :
    (s.answer r).slots = s.slots := rfl
@[simp] theorem answer_status (s : State) (r : Reply) :
    (s.answer r).status = s.status := rfl
@[simp] theorem answer_fcmd (s : State) (r : Reply) :
    (s.answer r).fcmd = s.fcmd := rfl
@[simp] theorem answer_faddr (s : State) (r : Reply) :
    (s.answer r).faddr = s.faddr := rfl
@[simp] theorem answer_mem (s : State) (r : Reply) :
    (s.answer r).mem = s.mem := rfl
@[simp] theorem answer_inbox (s : State) (r : Reply) :
    (s.answer r).inbox = s.inbox := rfl
@[simp] theorem answer_replies (s : State) (r : Reply) :
    (s.answer r).replies = s.replies ++ [r] := rfl
@[simp] theorem answer_freeCount (s : State) (r : Reply) :
    (s.answer r).freeCount = s.freeCount := rfl

@[simp] theorem readStatus_addrWidth (s : State) :
    (readStatus s).addrWidth = s.addrWidth := rfl
@[simp] theorem readStatus_refused (s : State) :
    (readStatus s).refused = s.refused := rfl
@[simp] theorem readStatus_slots (s : State) :
    (readStatus s).slots = s.slots := rfl
@[simp] theorem readStatus_status (s : State) :
    (readStatus s).status = s.status := rfl
@[simp] theorem readStatus_fcmd (s : State) :
    (readStatus s).fcmd = s.fcmd := rfl
@[simp] theorem readStatus_faddr (s : State) :
    (readStatus s).faddr = s.faddr := rfl
@[simp] theorem readStatus_mem (s : State) :
    (readStatus s).mem = s.mem := rfl
@[simp] theorem readStatus_inbox (s : State) :
    (readStatus s).inbox = s.inbox := rfl
@[simp] theorem readStatus_replies (s : State) :
    (readStatus s).replies = s.replies ++ [.status s.status s.fcmd s.faddr] := rfl
@[simp] theorem readStatus_freeCount (s : State) :
    (readStatus s).freeCount = s.freeCount := rfl

@[simp] theorem hostRead_addrWidth (a : Addr) (s : State) :
    (hostRead a s).addrWidth = s.addrWidth := rfl
@[simp] theorem hostRead_refused (a : Addr) (s : State) :
    (hostRead a s).refused = s.refused := rfl
@[simp] theorem hostRead_slots (a : Addr) (s : State) :
    (hostRead a s).slots = s.slots := rfl
@[simp] theorem hostRead_status (a : Addr) (s : State) :
    (hostRead a s).status = s.status := rfl
@[simp] theorem hostRead_fcmd (a : Addr) (s : State) :
    (hostRead a s).fcmd = s.fcmd := rfl
@[simp] theorem hostRead_faddr (a : Addr) (s : State) :
    (hostRead a s).faddr = s.faddr := rfl
@[simp] theorem hostRead_mem (a : Addr) (s : State) :
    (hostRead a s).mem = s.mem := rfl
@[simp] theorem hostRead_inbox (a : Addr) (s : State) :
    (hostRead a s).inbox = s.inbox := rfl
@[simp] theorem hostRead_replies (a : Addr) (s : State) :
    (hostRead a s).replies = s.replies ++ [.byte (s.mem.read a.toNat)] := rfl
@[simp] theorem hostRead_freeCount (a : Addr) (s : State) :
    (hostRead a s).freeCount = s.freeCount := rfl

@[simp] theorem hostWrite_addrWidth (a : Addr) (b : Byte) (s : State) :
    (hostWrite a b s).addrWidth = s.addrWidth := rfl
@[simp] theorem hostWrite_refused (a : Addr) (b : Byte) (s : State) :
    (hostWrite a b s).refused = s.refused := rfl
@[simp] theorem hostWrite_slots (a : Addr) (b : Byte) (s : State) :
    (hostWrite a b s).slots = s.slots := rfl
@[simp] theorem hostWrite_status (a : Addr) (b : Byte) (s : State) :
    (hostWrite a b s).status = s.status := rfl
@[simp] theorem hostWrite_fcmd (a : Addr) (b : Byte) (s : State) :
    (hostWrite a b s).fcmd = s.fcmd := rfl
@[simp] theorem hostWrite_faddr (a : Addr) (b : Byte) (s : State) :
    (hostWrite a b s).faddr = s.faddr := rfl
@[simp] theorem hostWrite_mem (a : Addr) (b : Byte) (s : State) :
    (hostWrite a b s).mem = s.mem.write a.toNat b := rfl
@[simp] theorem hostWrite_inbox (a : Addr) (b : Byte) (s : State) :
    (hostWrite a b s).inbox = s.inbox := rfl
@[simp] theorem hostWrite_replies (a : Addr) (b : Byte) (s : State) :
    (hostWrite a b s).replies = s.replies := rfl
@[simp] theorem hostWrite_freeCount (a : Addr) (b : Byte) (s : State) :
    (hostWrite a b s).freeCount = s.freeCount := rfl

@[simp] theorem resetEngine_addrWidth (s : State) :
    (resetEngine s).addrWidth = s.addrWidth := rfl
@[simp] theorem resetEngine_refused (s : State) :
    (resetEngine s).refused = s.refused := rfl
@[simp] theorem resetEngine_slots (s : State) :
    (resetEngine s).slots = s.slots.mapIdx fun i _ => Slot.empty .uninit (s.freeCount + i) := rfl
@[simp] theorem resetEngine_status (s : State) :
    (resetEngine s).status = 0 := rfl
@[simp] theorem resetEngine_fcmd (s : State) :
    (resetEngine s).fcmd = 0 := rfl
@[simp] theorem resetEngine_faddr (s : State) :
    (resetEngine s).faddr = 0 := rfl
@[simp] theorem resetEngine_mem (s : State) :
    (resetEngine s).mem = s.mem := rfl
@[simp] theorem resetEngine_inbox (s : State) :
    (resetEngine s).inbox = s.inbox := rfl
@[simp] theorem resetEngine_replies (s : State) :
    (resetEngine s).replies = s.replies := rfl
@[simp] theorem resetEngine_freeCount (s : State) :
    (resetEngine s).freeCount = s.freeCount + s.slots.length := rfl

@[simp] theorem withFetchWord_addrWidth (s : State) (nbits w : Nat) :
    (s.withFetchWord nbits w).addrWidth = s.addrWidth := rfl
@[simp] theorem withFetchWord_refused (s : State) (nbits w : Nat) :
    (s.withFetchWord nbits w).refused = s.refused := rfl
@[simp] theorem withFetchWord_slots (s : State) (nbits w : Nat) :
    (s.withFetchWord nbits w).slots = s.slots := rfl
@[simp] theorem withFetchWord_status (s : State) (nbits w : Nat) :
    (s.withFetchWord nbits w).status = s.status := rfl
@[simp] theorem withFetchWord_fcmd (s : State) (nbits w : Nat) :
    (s.withFetchWord nbits w).fcmd = s.fcmd := rfl
@[simp] theorem withFetchWord_faddr (s : State) (nbits w : Nat) :
    (s.withFetchWord nbits w).faddr = s.faddr := rfl
@[simp] theorem withFetchWord_mem (s : State) (nbits w : Nat) :
    (s.withFetchWord nbits w).mem = s.mem := rfl
@[simp] theorem withFetchWord_inbox (s : State) (nbits w : Nat) :
    (s.withFetchWord nbits w).inbox = .command (commandOfNat (w % 2 ^ nbits)) :: s.inbox := rfl
@[simp] theorem withFetchWord_replies (s : State) (nbits w : Nat) :
    (s.withFetchWord nbits w).replies = s.replies := rfl
@[simp] theorem withFetchWord_freeCount (s : State) (nbits w : Nat) :
    (s.withFetchWord nbits w).freeCount = s.freeCount := rfl

@[simp] theorem resetOf_addrWidth (c : Config) : (State.resetOf c).addrWidth = c.addrWidth := rfl
@[simp] theorem resetOf_refused (c : Config) : (State.resetOf c).refused = c.refused := rfl
@[simp] theorem resetOf_slots (c : Config) : (State.resetOf c).slots = List.replicate c.numContexts Slot.reset := rfl
@[simp] theorem resetOf_status (c : Config) : (State.resetOf c).status = 0 := rfl
@[simp] theorem resetOf_fcmd (c : Config) : (State.resetOf c).fcmd = 0 := rfl
@[simp] theorem resetOf_faddr (c : Config) : (State.resetOf c).faddr = 0 := rfl
@[simp] theorem resetOf_mem (c : Config) : (State.resetOf c).mem = [] := rfl
@[simp] theorem resetOf_inbox (c : Config) : (State.resetOf c).inbox = [] := rfl
@[simp] theorem resetOf_replies (c : Config) : (State.resetOf c).replies = [] := rfl
@[simp] theorem resetOf_freeCount (c : Config) : (State.resetOf c).freeCount = 0 := rfl

/-- The canonical form holds of the memory of every reset state. -/
theorem resetOf_mem_wf (c : Config) : (State.resetOf c).mem.wf := ⟨.nil, fun _ h => by cases h⟩

/-- RESET keeps it, since it does not touch host memory (R116). -/
theorem resetEngine_mem_wf (s : State) (h : s.mem.wf) : (resetEngine s).mem.wf := h

@[simp] theorem empty_phase (p : Phase) (n : Nat) : (Slot.empty p n).phase = p := rfl
@[simp] theorem empty_h (p : Phase) (n : Nat) : (Slot.empty p n).h = Config.freeHash n := rfl
@[simp] theorem empty_buf (p : Phase) (n : Nat) : (Slot.empty p n).buf = Config.freeBuffer n := rfl
@[simp] theorem empty_blen (p : Phase) (n : Nat) : (Slot.empty p n).blen = (Config.freeLength n).val := rfl
@[simp] theorem empty_tbl (p : Phase) (n : Nat) : (Slot.empty p n).tbl = Config.freeBitCount n := rfl

theorem halted_congr {s t : State} (h : s.status = t.status) : s.halted = t.halted := by
  simp only [State.halted, h]

@[simp] theorem halted_updateSlot (s : State) (c : BitVec 4) (f : Slot → Slot) :
    (s.updateSlot c f).halted = s.halted := rfl

@[simp] theorem halted_answer (s : State) (r : Reply) : (s.answer r).halted = s.halted := rfl

@[simp] theorem halted_hostWrite (a : Addr) (b : Byte) (s : State) : (hostWrite a b s).halted = s.halted := rfl

theorem faultStatus_halted (c : Cause) : (faultStatus c).getLsbD 0 = true := by cases c <;> decide

@[simp] theorem halted_raise (s : State) (cw : Word) (f : FaultReport) : (s.raise cw f).halted = true :=
  faultStatus_halted f.cause

@[simp] theorem halted_resetEngine (s : State) : (resetEngine s).halted = false := by
  simp [State.halted]

theorem raise_eq_withFault (s : State) (cw : Word) (f : FaultReport) :
    s.raise cw f = s.withFault (faultStatus f.cause) cw f.faddr := rfl

/-- Fault entry writes one of the seven legal STATUS values. -/
theorem raise_statusLegal (s : State) (cw : Word) (f : FaultReport) : (s.raise cw f).StatusLegal := by
  show faultStatus f.cause ∈ _
  cases f.cause <;> decide

end Sys2Proof.Machine
end

