-- ==== Sys2Proof/Laws/Ops.lean ====
section
/-! SUPPORT. What a command can do, said once: the common form of every meaning and its three cases (R106, R107, R109),
and the effect of each transaction. -/

namespace Sys2Proof.Machine

/-- The first failing check of a command, if any (R106). -/
def commandFault : Instr → State → Option FaultReport
  | .init c => contextFault c
  | .append c src len => appendFault c src len
  | .finish c dst => finishFault c dst
  | .digest src dst => digestFault src dst
  | .selfDigest src => selfDigestFault src

/-- The effect of a command that passes its checks. -/
def commandEffect : Instr → State → State
  | .init c => fun s => s.updateSlot c fun _ => Slot.initial
  | .append c src len => fun s => s.updateSlot c fun sl => sl.absorb (readBytes s.mem src.toNat len.toNat)
  | .finish c dst => finishEffect c dst
  | .digest src dst => fun s =>
    { s with mem := writeBytes s.mem dst.toNat (oneBlockDigest (readBytes s.mem src.toNat 32)) }
  | .selfDigest src => fun s => { s with mem := writeBytes s.mem src.toNat (sha256 (readBytes s.mem src.toNat 32)) }

theorem exec_eq_perform (i : Instr) (s : State) : exec i s = perform i s (commandFault i) (commandEffect i) := by
  cases i <;> rfl

theorem exec_halted {s : State} (i : Instr) (h : s.halted = true) : exec i s = .next s := by
  simp [exec_eq_perform, perform, h]

theorem exec_failing {i : Instr} {s : State} {f : FaultReport} (hr : s.Running) (h : commandFault i s = some f) :
    exec i s = .next (s.raise (encodeWord i) f) := by
  simp [exec_eq_perform, perform, hr, h]

theorem exec_effect {i : Instr} {s : State} (hr : s.Running) (h : commandFault i s = none) :
    exec i s = .next (commandEffect i s) := by
  simp [exec_eq_perform, perform, hr, h]

/-- The same with the STATUS value written out (R108). -/
theorem exec_faults {i : Instr} {s : State} {cause : Cause} {faddr : Addr} {st : Word} (hr : s.Running)
    (h : commandFault i s = some { cause := cause, faddr := faddr }) (hst : faultStatus cause = st) :
    exec i s = .next (s.withFault st (encodeWord i) faddr) := by
  rw [exec_failing hr h, raise_eq_withFault, hst]

/-- Every way a command can end: it always gives a next state, and one of three (R106, R107, R109). -/
theorem exec_cases (i : Instr) (s : State) :
    (s.halted = true ∧ exec i s = .next s) ∨
    (s.Running ∧ ∃ f, commandFault i s = some f ∧ exec i s = .next (s.raise (encodeWord i) f)) ∨
    (s.Running ∧ commandFault i s = none ∧ exec i s = .next (commandEffect i s)) := by
  cases hh : s.halted with
  | true => exact .inl ⟨rfl, exec_halted i hh⟩
  | false =>
    cases hf : commandFault i s with
    | none => exact .inr (.inr ⟨hh, rfl, exec_effect hh hf⟩)
    | some f => exact .inr (.inl ⟨hh, f, rfl, exec_failing hh hf⟩)

/-- The same, from a given next state. -/
theorem exec_next {i : Instr} {s t : State} (h : exec i s = .next t) :
    (s.halted = true ∧ t = s) ∨
    (s.Running ∧ ∃ f, commandFault i s = some f ∧ t = s.raise (encodeWord i) f) ∨
    (s.Running ∧ commandFault i s = none ∧ t = commandEffect i s) := by
  rcases exec_cases i s with ⟨hh, he⟩ | ⟨hr, f, hf, he⟩ | ⟨hr, hf, he⟩ <;> rw [he] at h <;> cases h
  · exact .inl ⟨hh, rfl⟩
  · exact .inr (.inl ⟨hr, f, hf, rfl⟩)
  · exact .inr (.inr ⟨hr, hf, rfl⟩)

theorem performIllegal_halted {s : State} (cw : Word) (h : s.halted = true) : performIllegal cw s = .next s := by
  simp [performIllegal, h]

theorem performIllegal_running {s : State} (cw : Word) (h : s.Running) :
    performIllegal cw s = .next (s.raise cw { cause := .illegalCommand, faddr := 0 }) := by
  simp [performIllegal, h]

/-- Every way a step can end (R28, R50). -/
theorem step_cases (s : State) :
    (s.inbox = [] ∧ step s = .next s) ∨
    ∃ x rest, s.inbox = x :: rest ∧
      ((x.fits s.addrWidth = true ∧ step s = transact x { s with inbox := rest }) ∨
       (x.fits s.addrWidth = false ∧ step s = .fault .noSuchAddress)) := by
  unfold step nextTransaction
  cases h : s.inbox with
  | nil => exact .inl ⟨rfl, rfl⟩
  | cons x rest =>
    refine .inr ⟨x, rest, rfl, ?_⟩
    cases hf : x.fits s.addrWidth
    · exact .inr ⟨rfl, by simp [hf]⟩
    · exact .inl ⟨rfl, by simp [hf]⟩

theorem step_of_inbox {s : State} {x : Transaction} {rest : List Transaction} (h : s.inbox = x :: rest)
    (hf : x.fits s.addrWidth = true) : step s = transact x { s with inbox := rest } := by
  simp [step, nextTransaction, h, hf]

/-- The parameters, the issued transactions and the answers are no command's business. -/
theorem commandEffect_frame (i : Instr) (s : State) :
    (commandEffect i s).addrWidth = s.addrWidth ∧ (commandEffect i s).refused = s.refused ∧
    (commandEffect i s).slots.length = s.slots.length ∧ (commandEffect i s).status = s.status ∧
    (commandEffect i s).fcmd = s.fcmd ∧ (commandEffect i s).faddr = s.faddr ∧
    (commandEffect i s).inbox = s.inbox ∧ (commandEffect i s).replies = s.replies := by
  cases i with
  | init c => simp [commandEffect]
  | append c src len => simp [commandEffect]
  | finish c dst => simp only [commandEffect, finishEffect]; split <;> simp
  | digest src dst => simp [commandEffect]
  | selfDigest src => simp [commandEffect]

/-- FINISH's effect on a slot that exists. -/
theorem finishEffect_of_slot {c : BitVec 4} {s : State} {sl : Slot} (h : s.slots[c.toNat]? = some sl) (dst : Addr) :
    finishEffect c dst s =
      { s.updateSlot c (fun _ => Slot.empty .consumed s.freeCount) with
        mem := writeBytes s.mem dst.toNat (digestBytes sl.finalHash)
        freeCount := s.freeCount + 1 } := by
  simp [finishEffect, State.slot?, h]

/-- Rewriting a slot that exists is setting it. -/
theorem updateSlot_eq_set {c : BitVec 4} {s : State} {sl : Slot} (h : s.slots[c.toNat]? = some sl) (f : Slot → Slot) :
    s.updateSlot c f = { s with slots := s.slots.set c.toNat (f sl) } := by
  unfold State.updateSlot
  congr 1
  obtain ⟨hlt, rfl⟩ := List.getElem?_eq_some_iff.mp h
  rw [List.modify_eq_set_getElem? , h]
  rfl

/-- FINISH's effect with every field written out. -/
theorem commandEffect_finish {c : BitVec 4} {s : State} {sl : Slot} (h : s.slots[c.toNat]? = some sl) (dst : Addr) :
    commandEffect (.finish c dst) s =
      { s with
        slots := s.slots.set c.toNat (Slot.empty .consumed s.freeCount)
        mem := writeBytes s.mem dst.toNat (digestBytes sl.finalHash)
        freeCount := s.freeCount + 1 } := by
  simp only [commandEffect]
  rw [finishEffect_of_slot h, updateSlot_eq_set h]

/-- All a command that passes its checks can do to the slots: nothing, or one slot that exists becomes freshly
initialised, or CONSUMED, or, if ACTIVE, absorbs bytes without overflow of its counter (R72, R73, R75). -/
theorem commandEffect_slots (i : Instr) (s : State) (hn : commandFault i s = none) :
    (commandEffect i s).slots = s.slots ∨
    ∃ c sl x, s.slots[c]? = some sl ∧ (commandEffect i s).slots = s.slots.set c x ∧
      (x = Slot.initial ∨ (x.phase = .consumed ∧ x.blen ≤ 64) ∨
        (sl.phase = .active ∧ ∃ bs, sl.tbl.toNat + 8 * bs.length < 2 ^ 64 ∧ x = sl.absorb bs)) := by
  cases i with
  | init c =>
    have h := List.getElem?_eq_getElem ((contextFault_eq_none c s).mp hn)
    refine .inr ⟨c.toNat, _, Slot.initial, h, ?_, .inl rfl⟩
    simp only [commandEffect]
    rw [updateSlot_eq_set h]
  | append c src len =>
    obtain ⟨sl, h, hp, hl, _⟩ := (appendFault_eq_none c src len s).mp hn
    refine .inr ⟨c.toNat, sl, _, h, ?_,
      .inr (.inr ⟨hp, readBytes s.mem src.toNat len.toNat, by rw [readBytes_length]; exact hl, rfl⟩)⟩
    simp only [commandEffect]
    rw [updateSlot_eq_set h]
  | finish c dst =>
    obtain ⟨sl, h, hp, _⟩ := (finishFault_eq_none c dst s).mp hn
    rw [commandEffect_finish h dst]
    exact .inr ⟨c.toNat, sl, Slot.empty .consumed s.freeCount, h, rfl,
      .inr (.inl ⟨rfl, Nat.lt_succ_iff.mp (Config.freeLength s.freeCount).isLt⟩)⟩
  | digest src dst => simp only [commandEffect]; exact .inl trivial
  | selfDigest src => simp only [commandEffect]; exact .inl trivial

/-- All a command that passes its checks can do to host memory: nothing, or 32 bytes to the range it names, which lies in
the address space (R44, R45). -/
theorem commandEffect_mem (i : Instr) (s : State) (hn : commandFault i s = none) :
    (commandEffect i s).mem = s.mem ∨
    ∃ (a : Addr) (bs : List Byte), bs.length = 32 ∧ (commandEffect i s).mem = writeBytes s.mem a.toNat bs ∧
      s.InSpace a 32 ∧ ∀ x, MayWrite i x ↔ ¬ Outside a 32 x := by
  cases i with
  | init c => exact .inl rfl
  | append c src len => exact .inl rfl
  | finish c dst =>
    obtain ⟨sl, h, hp, hs, _⟩ := (finishFault_eq_none c dst s).mp hn
    rw [commandEffect_finish h dst]
    refine .inr ⟨dst, digestBytes sl.finalHash, digestBytes_length _, by simp only [], hs, fun x => ?_⟩
    simp only [MayWrite, Outside]; omega
  | digest src dst =>
    obtain ⟨_, hs, _⟩ := (digestFault_eq_none _ _ s).mp hn
    simp only [commandEffect]
    refine .inr ⟨dst, oneBlockDigest (readBytes s.mem src.toNat 32), by simp, rfl, hs, fun x => ?_⟩
    simp only [MayWrite, Outside]; omega
  | selfDigest src =>
    obtain ⟨hs, _⟩ := (selfDigestFault_eq_none _ s).mp hn
    simp only [commandEffect]
    refine .inr ⟨src, sha256 (readBytes s.mem src.toNat 32), by simp, rfl, hs, fun x => ?_⟩
    simp only [MayWrite, Outside]; omega

/-- Every way a command that has been issued can end, legal or not: nothing (halted), fault entry, or its effect. -/
theorem performCommand_cases {c : Command} {s t : State} (h : performCommand c s = .next t) :
    (s.halted = true ∧ t = s) ∨
    (s.Running ∧ ∃ f : FaultReport, (f = { cause := .illegalCommand, faddr := 0 } ∨
      ∃ i, decode c = .legal i ∧ commandFault i s = some f) ∧ ∃ cw, t = s.raise cw f) ∨
    (s.Running ∧ ∃ i, decode c = .legal i ∧ commandFault i s = none ∧ t = commandEffect i s) := by
  unfold performCommand at h
  split at h
  · rename_i i hd
    rcases exec_next h with ⟨hh, rfl⟩ | ⟨hh, f, hf, rfl⟩ | ⟨hh, hf, rfl⟩
    · exact .inl ⟨hh, rfl⟩
    · exact .inr (.inl ⟨hh, f, .inr ⟨i, hd, hf⟩, _, rfl⟩)
    · exact .inr (.inr ⟨hh, i, hd, hf, rfl⟩)
  · unfold performIllegal at h
    split at h
    · rename_i hh; cases h; exact .inl ⟨hh, rfl⟩
    · rename_i hh; cases h; exact .inr (.inl ⟨by simpa using hh, _, .inl rfl, _, rfl⟩)

/-- A command whose addresses are addresses of the machine decodes to a well-formed instruction (R56). -/
theorem wellFormed_of_decode {c : Command} {i : Instr} {w : Nat} (h : decode c = .legal i)
    (hf : c.fits w = true) : i.wellFormed w = true := by
  simp only [Command.fits, Bool.and_eq_true] at hf
  unfold decode at h
  split at h
  · cases h
  · split at h
    · cases h; rfl
    · cases h; exact hf.1
    · cases h; exact hf.2
    · split at h <;> cases h; simp [Instr.wellFormed, hf]
    · split at h <;> cases h; simp [Instr.wellFormed, hf]
    · cases h

end Sys2Proof.Machine
end

