-- ==== Sys2Proof/Laws/PerInstr.lean ====
section
/-! SUPPORT. What holds of every instruction as syntax, one lemma per constructor. -/

namespace Sys2Proof.Laws.CommandWord

/-- The command word of an instruction has every reserved bit 0 and a defined opcode (30_encoding.md R57, R60, R63). -/
def Statement (i : Instr) : Prop :=
  rsvField (encodeWord i) = 0 ∧ 1 ≤ (opField (encodeWord i)).toNat ∧ (opField (encodeWord i)).toNat ≤ 5

theorem init (c : BitVec 4) : Statement (.init c) := by
  simp only [Statement, encodeWord]; revert c; decide

theorem append (c : BitVec 4) (src : Addr) (len : U64) : Statement (.append c src len) := by
  simp only [Statement, encodeWord]; revert c; decide

theorem finish (c : BitVec 4) (dst : Addr) : Statement (.finish c dst) := by
  simp only [Statement, encodeWord]; revert c; decide

theorem digest (src dst : Addr) : Statement (.digest src dst) := by
  simp only [Statement, encodeWord]; decide

theorem selfDigest (src : Addr) : Statement (.selfDigest src) := by
  simp only [Statement, encodeWord]; decide

end Sys2Proof.Laws.CommandWord
end

