-- ==== Sys2Proof/Tests/Slice0.lean ====
section
/-! SUPPORT. The model's own tests. Expected values are those of spec/95_test_vectors.md (the section is named at each
test) or worked out by hand from the rule named; none is the model's own answer. After them, for each obligation with
hypotheses, a witness that meets them. -/

open Sys2Proof Sys2Proof.Machine

namespace Sys2Proof.Tests

set_option Elab.async false

/-! ### Helpers -/

/-- The configuration of 95_test_vectors.md §2.9. -/
def small : Config :=
  { addrWidth := 16, numContexts := 2
    refused := [{ kind := .read, lo := 0x8000, hi := 0x10000 }, { kind := .write, lo := 0x7000, hi := 0x10000 }] }

/-- That machine right after reset. -/
def fresh : State := State.resetOf small

/-- The outcome is a next state for which the check holds. -/
def check (p : State → Bool) (o : Host.Outcome State Fault Refusal) : Bool :=
  match o with
  | .next t => p t
  | .fault _ => false
  | .refused _ => false

theorem of_check {p : State → Bool} {o : Host.Outcome State Fault Refusal} (h : check p o = true) :
    ∃ t, o = .next t ∧ p t = true := by
  cases o with
  | next t => exact ⟨t, rfl, h⟩
  | fault r => cases h
  | refused r => cases h

/-- A slot in ACTIVE with hash state `h` that holds the pending bytes and the bit count given. -/
def holding (h : Hash) (pending : List Byte) (bits : U64) : Slot :=
  { phase := .active, h := h, buf := blockOfBytes (pending ++ zeroBytes (64 - pending.length))
    blen := pending.length, tbl := bits }

/-- `fresh` with slot 0 as given and a directive's bytes in memory. -/
def prepared (sl : Slot) (d : Directive) : State :=
  { fresh with slots := [sl, Slot.reset], mem := placeDirective [] d }

/-- `fresh` with one command issued. -/
def issued (cw : Word) : State := { fresh with inbox := [.command { cw := cw, src := 0, dst := 0, len := 0 }] }

/-- Slot 0 in phase `p`. -/
def inPhase (p : Phase) : State := { fresh with slots := [{ Slot.reset with phase := p }, Slot.reset] }

/-- The fault record of a state. -/
def hasRecord (st cw : Word) (a : Addr) (s : State) : Bool := s.status == st && s.fcmd == cw && s.faddr == a

/-- The message `"abc"`. -/
def abc : List Byte := [0x61, 0x62, 0x63]

/-- The 56-byte message of 95_test_vectors.md K3. -/
def message56 : List Byte :=
  "abcdbcdecdefdefgefghfghighijhijkijkljklmklmnlmnomnopnopq".toList.map fun ch => BitVec.ofNat 8 ch.toNat

/-- 95_test_vectors.md K2. -/
def k2 : List Byte :=
  [0xba, 0x78, 0x16, 0xbf, 0x8f, 0x01, 0xcf, 0xea, 0x41, 0x41, 0x40, 0xde, 0x5d, 0xae, 0x22, 0x23] ++
  [0xb0, 0x03, 0x61, 0xa3, 0x96, 0x17, 0x7a, 0x9c, 0xb4, 0x10, 0xff, 0x61, 0xf2, 0x00, 0x15, 0xad]

/-- 95_test_vectors.md K3. -/
def k3 : List Byte :=
  [0x24, 0x8d, 0x6a, 0x61, 0xd2, 0x06, 0x38, 0xb8, 0xe5, 0xc0, 0x26, 0x93, 0x0c, 0x3e, 0x60, 0x39] ++
  [0xa3, 0x3c, 0xe4, 0x59, 0x64, 0xff, 0x21, 0x67, 0xf6, 0xec, 0xed, 0xd4, 0x19, 0xdb, 0x06, 0xc1]

/-- 95_test_vectors.md §2.7, the three outputs in order. -/
def digest1 : List Byte :=
  [0x66, 0x68, 0x7a, 0xad, 0xf8, 0x62, 0xbd, 0x77, 0x6c, 0x8f, 0xc1, 0x8b, 0x8e, 0x9f, 0x8e, 0x20] ++
  [0x08, 0x97, 0x14, 0x85, 0x6e, 0xe2, 0x33, 0xb3, 0x90, 0x2a, 0x59, 0x1d, 0x0d, 0x5f, 0x29, 0x25]

def digest2 : List Byte :=
  [0x2b, 0x32, 0xdb, 0x6c, 0x2c, 0x0a, 0x62, 0x35, 0xfb, 0x13, 0x97, 0xe8, 0x22, 0x5e, 0xa8, 0x5e] ++
  [0x0f, 0x0e, 0x6e, 0x8c, 0x7b, 0x12, 0x6d, 0x00, 0x16, 0xcc, 0xbd, 0xe0, 0xe6, 0x67, 0x15, 0x1e]

def digest3 : List Byte :=
  [0x12, 0x77, 0x13, 0x55, 0xe4, 0x6c, 0xd4, 0x7c, 0x71, 0xed, 0x17, 0x21, 0xfd, 0x53, 0x19, 0xb3] ++
  [0x83, 0xcc, 0xa3, 0xa1, 0xf9, 0xfc, 0xe3, 0xaa, 0x1c, 0x8c, 0xd3, 0xbd, 0x37, 0xaf, 0x20, 0xd7]

/-! ### WellFormed: an ill-formed term for each check, in a 16-bit machine (R10, R56) -/

theorem test_wf_append_src : Instr.wellFormed 16 (.append 0 0x10000 1) = false := by decide
theorem test_wf_finish_dst : Instr.wellFormed 16 (.finish 0 0x10000) = false := by decide
theorem test_wf_digest_src : Instr.wellFormed 16 (.digest 0x10000 0) = false := by decide
theorem test_wf_digest_dst : Instr.wellFormed 16 (.digest 0 0x10000) = false := by decide
theorem test_wf_selfDigest_src : Instr.wellFormed 16 (.selfDigest 0x10000) = false := by decide
theorem test_wf_last_address : Instr.wellFormed 16 (.digest 0xFFFF 0xFFFF) = true := by decide
theorem test_fits_ignored_dst : Command.fits 16 { cw := 0x1, src := 0, dst := 0x10000, len := 0 } = false := by decide
theorem test_fits_hostWrite : Transaction.fits 16 (.hostWrite 0x10000 0) = false := by decide
theorem test_fits_hostRead : Transaction.fits 16 (.hostRead 0x10000) = false := by decide

/-! ### Decoding: words written out field by field, RSV(24) CTX(4) OP(4), from 30_encoding.md R57, R58, R63 -/

theorem test_decode_init : decode { cw := 0b000000000000000000000000_0001_0001, src := 5, dst := 6, len := 7 } =
    .legal (.init 1) := by decide
theorem test_decode_append : decode { cw := 0b000000000000000000000000_1111_0010, src := 5, dst := 6, len := 7 } =
    .legal (.append 15 5 7) := by decide
theorem test_decode_finish : decode { cw := 0b000000000000000000000000_1000_0011, src := 5, dst := 6, len := 7 } =
    .legal (.finish 8 6) := by decide
theorem test_decode_digest : decode { cw := 0b000000000000000000000000_0000_0100, src := 5, dst := 6, len := 7 } =
    .legal (.digest 5 6) := by decide
theorem test_decode_selfDigest : decode { cw := 0b000000000000000000000000_0000_0101, src := 5, dst := 6, len := 7 } =
    .legal (.selfDigest 5) := by decide
/-- 95_test_vectors.md §2.8 -/
theorem test_decode_illegal :
    decode { cw := 0x00000000, src := 0, dst := 0, len := 0 } = .illegal .reservedOpcode ∧
    decode { cw := 0x00000006, src := 0, dst := 0, len := 0 } = .illegal .reservedOpcode ∧
    decode { cw := 0x0000000F, src := 0, dst := 0, len := 0 } = .illegal .reservedOpcode ∧
    decode { cw := 0x00000014, src := 0, dst := 0, len := 0 } = .illegal .nonzeroContext ∧
    decode { cw := 0x00000101, src := 0, dst := 0, len := 0 } = .illegal .reservedBits ∧
    decode { cw := 0x80000002, src := 0, dst := 0, len := 0 } = .illegal .reservedBits := by decide
theorem test_table_word_digest : decodeTableWord 32 0x4 = some (.digest 0 0) := by decide
theorem test_table_word_illegal : decodeTableWord 32 0x15 = none := by decide
theorem test_fetch_word : (State.reset.withFetchWord 32 0x12).inbox =
    [.command { cw := 0x12, src := 0, dst := 0, len := 0 }] := by decide
/-- The encodings of 95_test_vectors.md P1. -/
theorem test_encode_hash : (hashCommands 0 0x100 3 0x200).map encode =
    [{ cw := 0x1, src := 0, dst := 0, len := 0 }, { cw := 0x2, src := 0x100, dst := 0, len := 3 },
     { cw := 0x3, src := 0, dst := 0x200, len := 0 }] := by decide
theorem test_assembly : assembly (.append 1 256 3) = "APPEND c1, 256, 3" := by decide +kernel

/-! ### The algorithm -/

/-- 95_test_vectors.md §2.1, the row of 12345678. -/
theorem test_sigmas : bigSigma0 0x12345678 = 0x66146474 ∧ bigSigma1 0x12345678 = 0x3561ABDA ∧
    smallSigma0 0x12345678 = 0xE7FCE6EE ∧ smallSigma1 0x12345678 = 0xA1F78649 := by decide
/-- 95_test_vectors.md §2.1 -/
theorem test_ch_maj : ch 0x510E527F 0x9B05688C 0x1F83D9AB = 0x1F85C98C ∧
    maj 0x6A09E667 0xBB67AE85 0x3C6EF372 = 0x3A6FE667 := by decide
/-- 95_test_vectors.md §2.2, W[16..19] and W[63]. -/
theorem test_schedule_abc :
    let w := schedule (blockOfBytes (abc ++ [0x80] ++ zeroBytes 52 ++ bytesBe64 24))
    w.drop 16 |>.take 4 |> (· ++ w.drop 63) |> (· = [0x61626380, 0x000F0000, 0x7DA86405, 0x600003C6, 0x12B1EDEB]) := by
  decide +kernel
/-- 95_test_vectors.md §2.3, round 0. -/
theorem test_round_zero : compressionRound 0x428A2F98 0x61626380 (workingOf initialHash) =
    ⟨0x5D6AEBCD, 0x6A09E667, 0xBB67AE85, 0x3C6EF372, 0xFA2A4622, 0x510E527F, 0x9B05688C, 0x1F83D9AB⟩ := by decide +kernel
/-- 95_test_vectors.md §2.4, the row of eight zero words. -/
theorem test_compress_zero : compress (Vector.replicate 8 0) (Vector.replicate 64 0) =
    #v[0x7CA51614, 0x425C3BA8, 0xCE54DD2F, 0xC2020AE7, 0xB6E574D1, 0x98136D0F, 0xAE7E26CC, 0xBF0BE7A6] := by
  decide +kernel
/-- 95_test_vectors.md K3. -/
theorem test_sha256_k3 : sha256 message56 = k3 := by decide +kernel

/-! ### INIT -/

/-- R72, on a CONSUMED slot. -/
theorem test_init : check (fun t => (t.slots[0]?.map fun sl => (sl.phase, sl.h, sl.blen, sl.tbl)) ==
      some (.active, initialHash, 0, 0) && t.status == 0 && t.slots[1]? == some Slot.reset)
    (exec (.init 0) (inPhase .consumed)) = true := by decide +kernel
/-- 95_test_vectors.md V16. -/
theorem test_init_bad_context : check (hasRecord 0x21 0x21 0) (exec (.init 2) fresh) = true := by decide +kernel

/-! ### APPEND -/

/-- 95_test_vectors.md §2.6, third row: 63 bytes 'a' after one. -/
theorem test_append_fills_block : check (fun t => (t.slots[0]?.map fun sl => (sl.h, sl.blen, sl.tbl)) ==
      some (#v[0xDF5BB81C, 0xE81E0626, 0xFB45A894, 0x4FD40F31, 0xB25E6816, 0xD6D499C1, 0xAB904929, 0x00635E66], 0, 512))
    (exec (.append 0 0x1001 63) (prepared (holding initialHash [0x61] 8) (.fill 0x1000 64 0x61))) = true := by
  decide +kernel
/-- 95_test_vectors.md V9. -/
theorem test_append_memory_fault : check (hasRecord 0x71 0x2 0x8000)
    (exec (.append 0 0x7FF0 0x20) (prepared Slot.initial (.hex 0 []))) = true := by decide +kernel

/-! ### FINISH -/

/-- 95_test_vectors.md P1. -/
theorem test_finish_abc : check (fun t => readBytes t.mem 0x200 32 == k2 && t.mem.read 0x220 == 0 &&
      (t.slots[0]?.map (·.phase)) == some .consumed)
    (exec (.finish 0 0x200) (prepared (holding initialHash abc 24) (.hex 0 []))) = true := by decide +kernel
/-- 95_test_vectors.md P4: two blocks. -/
theorem test_finish_two_blocks : check (fun t => readBytes t.mem 0x500 32 == k3)
    (exec (.finish 0 0x500) (prepared (holding initialHash message56 448) (.hex 0 []))) = true := by decide +kernel

/-! ### DIGEST and SELF_DIGEST -/

/-- 95_test_vectors.md P5, third command: the ranges overlap. -/
theorem test_digest_overlap : check (fun t => readBytes t.mem 0x410 32 == digest3 &&
      readBytes t.mem 0x400 16 == digest2.take 16)
    (exec (.digest 0x400 0x410) (prepared Slot.reset (.hex 0x400 digest2))) = true := by decide +kernel
/-- 95_test_vectors.md V14: the read range before the write range. -/
theorem test_digest_memory_fault : check (hasRecord 0x71 0x4 0x8000) (exec (.digest 0x7FF0 0x7000) fresh) = true := by
  decide +kernel
/-- 95_test_vectors.md P5, second command. -/
theorem test_selfDigest : check (fun t => readBytes t.mem 0x400 32 == digest2)
    (exec (.selfDigest 0x400) (prepared Slot.reset (.hex 0x400 digest1))) = true := by decide +kernel
/-- 95_test_vectors.md V15. -/
theorem test_selfDigest_memory_fault : check (hasRecord 0x71 0x5 0x7000) (exec (.selfDigest 0x6FF0) fresh) = true := by
  decide +kernel

/-! ### The step -/

/-- 95_test_vectors.md §2.8, the row of 0x00000101. -/
theorem test_step_illegal : check (hasRecord 0x11 0x101 0) (step (issued 0x101)) = true := by decide +kernel
/-- R26. -/
theorem test_step_readStatus : check (fun t => t.replies == [.status 0x41 0x2 7] && t.status == 0x41)
    (step { fresh with status := 0x41, fcmd := 0x2, faddr := 7, inbox := [.readStatus] }) = true := by decide +kernel
/-- 95_test_vectors.md V18. -/
theorem test_step_reset : check (fun t => hasRecord 0 0 0 t && t.slots.map (·.phase) == [.uninit, .uninit])
    (step { inPhase .active with status := 0x11, inbox := [.reset] }) = true := by decide +kernel
/-- 95_test_vectors.md V17: not performed while halted. -/
theorem test_step_halted : check (fun t => hasRecord 0x11 0 0 t && t.slots.map (·.phase) == [.uninit, .uninit])
    (step { issued 0x1 with status := 0x11 }) = true := by decide +kernel
/-- The canonical form: writing the byte an unlisted address reads as removes the entry. -/
theorem test_memory_canonical : Memory.write [(3, 1), (5, 2)] 5 0 = [(3, 1)] ∧
    Memory.write [(3, 1), (5, 2)] 4 9 = [(3, 1), (4, 9), (5, 2)] := by decide

/-! ### Witnesses: for each obligation with hypotheses, a state and operands that meet them

One of each obligation's clauses stands at a boundary value of its range. `active` has slot 0 holding the empty
message and slot 1 UNINIT. -/

def active : State := prepared Slot.initial (.hex 0x100 abc)

/-- `active` with the given transactions issued. -/
def activeWith (ts : List Transaction) : State := { active with inbox := ts }

/-- A state halted on CONTEXT_CONSUMED. -/
def halted : State := { fresh with status := 0x41, fcmd := 0x2 }

/-- `active` with one bit of the counter's room left for whole bytes: tbl = 2^64 − 8. -/
def nearlyFull : State := prepared { Slot.initial with tbl := 0xFFFFFFFFFFFFFFF8 } (.hex 0 [])

/-- The statement's condition on a command word. -/
def bad (cw : Word) : Bool :=
  decide (cw.toNat / 256 ≠ 0 ∨ cw.toNat % 16 = 0 ∨ 6 ≤ cw.toNat % 16 ∨
    (cw.toNat % 16 = 4 ∨ cw.toNat % 16 = 5) ∧ cw.toNat / 16 % 16 ≠ 0)

theorem witness_IllegalWords_words :
    ([0x100, 0x80000001, 0x0, 0x6, 0xF, 0x14, 0xF5] : List Word).map bad = List.replicate 7 true ∧
    ([0xF1, 0xF2, 0xF3, 0x4, 0x5] : List Word).map bad = List.replicate 5 false := by decide +kernel
theorem witness_IllegalWords_state : (issued 0x100).Running ∧ (issued 0x100).inbox = [.command ⟨0x100, 0, 0, 0⟩] ∧
    Command.fits (issued 0x100).addrWidth ⟨0x100, 0xFFFF, 0xFFFF, 0⟩ = true := by decide +kernel
theorem witness_DecodeOfEncode : Instr.wellFormed 16 (.digest 0xFFFF 0) = true := by decide +kernel
theorem witness_LegalWord : decode ⟨0xF3, 1, 2, 3⟩ = .legal (.finish 15 2) := by decide +kernel
theorem witness_IgnoredOperands :
    let x : Command := ⟨0x2, 0x100, 0xFFFF, 3⟩
    let y : Command := ⟨0x2, 0x100, 0, 3⟩
    x.fits active.addrWidth = true ∧ y.fits active.addrWidth = true ∧ x ≠ y ∧ x.cw = y.cw ∧
    (opField x.cw = 2 ∨ opField x.cw = 4 ∨ opField x.cw = 5 → x.src = y.src) ∧
    (opField x.cw = 3 ∨ opField x.cw = 4 → x.dst = y.dst) ∧ (opField x.cw = 2 → x.len = y.len) := by decide +kernel
theorem witness_StepPerforms :
    (issued 0x1).inbox = [.command (encode (.init 0))] ∧ (encode (.init 0)).fits (issued 0x1).addrWidth = true ∧
    decode (encode (.init 0)) = .legal (.init 0) ∧ Instr.wellFormed (issued 0x1).addrWidth (.init 0) = true := by decide +kernel
theorem witness_EveryTransaction :
    active.inbox = [] ∧ (activeWith [.hostRead 0xFFFF]).inbox = [.hostRead 0xFFFF] ∧
    Transaction.fits (activeWith [.hostRead 0xFFFF]).addrWidth (.hostRead 0xFFFF) = true ∧
    Transaction.fits (activeWith [.hostRead 0x10000]).addrWidth (.hostRead 0x10000) = false := by decide +kernel
theorem witness_ReadStatus : (activeWith [.readStatus]).inbox = [.readStatus] := by decide +kernel
theorem witness_HostAccesses : (activeWith [.hostWrite 0xFFFF 1]).mem.wf ∧
    addrFits (activeWith [.hostWrite 0xFFFF 1]).addrWidth 0xFFFF = true ∧
    (activeWith [.hostWrite 0xFFFF 1]).inbox = [.hostWrite 0xFFFF 1] ∧
    (activeWith [.hostRead 0xFFFF]).inbox = [.hostRead 0xFFFF] := by decide +kernel
theorem witness_ParametersNeverChange : ∃ t, step (issued 0x1) = .next t ∧ (t.slots.length == 2) = true :=
  of_check (by decide +kernel)
theorem witness_ResetClears : ({ halted with inbox := [.reset] } : State).inbox = [.reset] := by decide +kernel
theorem witness_HaltedEngine : halted.halted = true ∧
    ({ issued 0x1 with status := 0x41 } : State).halted = true ∧
    (issued 0x1).inbox = [.command ⟨0x1, 0, 0, 0⟩] ∧ Command.fits 16 ⟨0x1, 0, 0, 0⟩ = true ∧
    ({ halted with inbox := [.readStatus] } : State).halted = true := by decide +kernel
theorem witness_OnlyResetLeaves_stays :
    halted.halted = true ∧ (∀ rest, halted.inbox ≠ .reset :: rest) ∧ ∃ t, step halted = .next t :=
  ⟨by decide +kernel, fun rest h => List.cons_ne_nil _ _ h.symm, halted, rfl⟩
theorem witness_OnlyResetLeaves_resets :
    let s : State := { halted with inbox := [.reset] }
    s.halted = true ∧ (∃ rest, s.inbox = .reset :: rest) ∧ ∃ t, step s = .next t ∧ (t.status == 0) = true :=
  ⟨by decide +kernel, ⟨[], rfl⟩, of_check (by decide +kernel)⟩
theorem witness_BadContext : active.Running ∧ active.slots.length ≤ (2 : BitVec 4).toNat := by decide +kernel
theorem witness_ContextUninit : active.Running ∧ active.slots[(1 : BitVec 4).toNat]? = some Slot.reset ∧
    Slot.reset.phase = .uninit := by decide +kernel
theorem witness_ContextConsumed : (inPhase .consumed).Running ∧
    (inPhase .consumed).slots[(0 : BitVec 4).toNat]? = some { Slot.reset with phase := .consumed } := by decide +kernel
theorem witness_LengthOverflow : nearlyFull.Running ∧
    nearlyFull.slots[(0 : BitVec 4).toNat]? = some { Slot.initial with tbl := 0xFFFFFFFFFFFFFFF8 } ∧
    2 ^ 64 ≤ (0xFFFFFFFFFFFFFFF8 : U64).toNat + 8 * (1 : U64).toNat := by decide +kernel
theorem witness_AddressRange : active.Running ∧ active.slots[(0 : BitVec 4).toNat]? = some Slot.initial ∧
    Slot.initial.phase = .active ∧ Slot.initial.tbl.toNat + 8 * (1 : U64).toNat < 2 ^ 64 ∧
    2 ^ active.addrWidth < (0x10000 : Addr).toNat + (1 : U64).toNat ∧
    2 ^ active.addrWidth < (0xFFF0 : Addr).toNat + (0x11 : U64).toNat ∧
    2 ^ active.addrWidth < (0xFFE1 : Addr).toNat + 32 ∧ active.InSpace 0xFFE0 32 := by decide +kernel
/-- Each clause of the statement: APPEND V9, FINISH V11, DIGEST read V14 and write, SELF_DIGEST read and write V15. -/
theorem witness_MemoryFault :
    active.slots[(0 : BitVec 4).toNat]? = some Slot.initial ∧ Slot.initial.tbl.toNat + 8 * (0x20 : U64).toNat < 2 ^ 64 ∧
    (∀ p ∈ [(AccessKind.read, 0x7FF0#64, 0x8000#64), (AccessKind.write, 0x6FF0#64, 0x7000#64),
        (AccessKind.read, 0x7FE1#64, 0x8000#64), (AccessKind.write, 0x7000#64, 0x7000#64)],
      active.Running ∧ active.InSpace p.2.1 32 ∧ p.2.1.toNat ≤ p.2.2.toNat ∧ p.2.2.toNat < p.2.1.toNat + 32 ∧
      active.admits p.1 p.2.2.toNat = false ∧ ∀ i < 32, p.2.1.toNat + i < p.2.2.toNat →
        active.admits p.1 (p.2.1.toNat + i) = true) ∧
    active.InSpace 0xFFE0 32 ∧ active.Admits .read 0x7FE0 32 ∧ active.Admits .read 0x6FF0 32 := by decide +kernel
theorem witness_FaultsArePrecise : fresh.Running ∧
    ∃ t, performCommand ⟨0x2, 0x100, 0, 0⟩ fresh = .next t ∧ t.halted = true :=
  ⟨by decide +kernel, of_check (p := State.halted) (by decide +kernel)⟩
theorem witness_FaultRecord_faults : (issued 0x2).Running ∧ (issued 0x2).inbox = [.command ⟨0x2, 0, 0, 0⟩] ∧
    ∃ t, step (issued 0x2) = .next t ∧ t.halted = true :=
  ⟨by decide +kernel, rfl, of_check (p := State.halted) (by decide +kernel)⟩
theorem witness_FaultRecord_completes : (issued 0x1).Running ∧ (issued 0x1).inbox = [.command ⟨0x1, 0, 0, 0⟩] ∧
    ∃ t, step (issued 0x1) = .next t ∧ (!t.halted) = true :=
  ⟨by decide +kernel, rfl, of_check (p := fun t => !t.halted) (by decide +kernel)⟩
theorem witness_InitLoads : fresh.Running ∧ (1 : BitVec 4).toNat < fresh.slots.length := by decide +kernel
theorem witness_InitErases : fresh.Running ∧ ∃ t, exec (.init 1) fresh = .next t ∧ (!t.halted) = true :=
  ⟨by decide +kernel, of_check (p := fun t => !t.halted) (by decide +kernel)⟩
/-- A range that ends where Admit begins to refuse; the last byte the counter has room for; and LEN = 0 anywhere. -/
theorem witness_AppendRuns : active.Running ∧ active.slots[(0 : BitVec 4).toNat]? = some Slot.initial ∧
    Slot.initial.phase = .active ∧ Slot.initial.tbl.toNat + 8 * (0x10 : U64).toNat < 2 ^ 64 ∧
    active.InSpace 0x7FF0 (0x10 : U64).toNat ∧ active.Admits .read 0x7FF0 (0x10 : U64).toNat ∧
    ((0xFFFFFFFFFFFFFFF0 : U64).toNat + 8 * (1 : U64).toNat < 2 ^ 64) ∧
    ((0 : U64) ≠ 0 → active.InSpace 0xFFFF (0 : U64).toNat ∧ active.Admits .read 0xFFFF (0 : U64).toNat) := by
  decide +kernel
theorem witness_Holds : active.slots[(0 : BitVec 4).toNat]? = some Slot.initial ∧ Slot.initial.Holds [] :=
  ⟨by decide +kernel, initial_holds⟩
theorem witness_ChunkingIsNotObservable : active.Running ∧ active.addrWidth ≤ 64 ∧
    (0 : BitVec 4).toNat < active.slots.length ∧
    (0x10 : U64).toNat = (([0x1, 0x0, 0xF] : List U64).map BitVec.toNat).sum ∧ 8 * (0x10 : U64).toNat < 2 ^ 64 ∧
    active.InSpace 0x7FF0 (0x10 : U64).toNat ∧ active.Admits .read 0x7FF0 (0x10 : U64).toNat ∧
    addrFits active.addrWidth 0x7FF0 = true ∧
    ∀ i ∈ chunks 0 0x7FF0 [0x1, 0x0, 0xF], i.wellFormed active.addrWidth = true := by decide +kernel
/-- The last blen of each number of FINISH blocks, and a slot that holds a message. -/
theorem witness_CompressCallCounts : (holding initialHash (zeroBytes 55) 440).blen = 55 ∧
    (holding initialHash (zeroBytes 63) 504).blen = 63 ∧ Slot.initial.Holds [] :=
  ⟨by decide +kernel, by decide +kernel, initial_holds⟩
/-- 55 and 56 pending bytes, and a range that ends where Admit begins to refuse. -/
theorem witness_FinishWrites : ∀ n ∈ [0, 55, 56, 63],
    let s := prepared (holding initialHash (zeroBytes n) (BitVec.ofNat 64 (8 * n))) (.hex 0 [])
    s.Running ∧ s.mem.wf ∧
    s.slots[(0 : BitVec 4).toNat]? = some (holding initialHash (zeroBytes n) (BitVec.ofNat 64 (8 * n))) ∧
    (holding initialHash (zeroBytes n) (BitVec.ofNat 64 (8 * n))).phase = .active ∧
    (holding initialHash (zeroBytes n) (BitVec.ofNat 64 (8 * n))).blen ≤ 63 ∧
    s.InSpace 0x6FE0 32 ∧ s.Admits .write 0x6FE0 32 := by decide +kernel
theorem witness_FinishWritesSha256 : active.Running ∧ active.mem.wf ∧
    active.slots[(0 : BitVec 4).toNat]? = some Slot.initial ∧ active.InSpace 0x6FE0 32 ∧
    active.Admits .write 0x6FE0 32 := by decide +kernel
/-- One piece that ends where Admit begins to refuse, and one of no bytes at a refused address. -/
theorem witness_HashSequence :
    let s := activeWith (issue [.init 1, .append 1 0x7FF0 0x10, .append 1 0xFFFF 0, .finish 1 0x6FE0])
    s.Running ∧ s.mem.wf ∧ (1 : BitVec 4).toNat < s.slots.length ∧
    addrFits s.addrWidth 0x7FF0 = true ∧ addrFits s.addrWidth 0xFFFF = true ∧
    s.InSpace 0x7FF0 (0x10 : U64).toNat ∧ s.Admits .read 0x7FF0 (0x10 : U64).toNat ∧
    (0x10 : U64).toNat + (0 : U64).toNat < 2 ^ 61 ∧ s.InSpace 0x6FE0 32 ∧ s.Admits .write 0x6FE0 32 := by decide +kernel
theorem witness_Digest : fresh.Running ∧ fresh.mem.wf ∧ fresh.InSpace 0x7FE0 32 ∧ fresh.InSpace 0x6FE0 32 ∧
    fresh.Admits .read 0x7FE0 32 ∧ fresh.Admits .write 0x6FE0 32 := by decide +kernel
theorem witness_SelfDigest : fresh.Running ∧ fresh.mem.wf ∧ fresh.InSpace 0x6FE0 32 ∧
    fresh.Admits .read 0x6FE0 32 ∧ fresh.Admits .write 0x6FE0 32 := by decide +kernel
theorem witness_SelfDigestIsDigest_runs : ∃ t, exec (.selfDigest 0x6FE0) fresh = .next t ∧ (!t.halted) = true :=
  of_check (p := fun t => !t.halted) (by decide +kernel)
theorem witness_SelfDigestIsDigest_faults : ∃ t, exec (.selfDigest 0x6FE1) fresh = .next t ∧ t.halted = true :=
  of_check (p := State.halted) (by decide +kernel)
theorem witness_ResetMeets : Config.Valid ⟨1, 1, []⟩ ∧ Config.Valid ⟨64, 16, []⟩ ∧ small.Valid := by decide +kernel

theorem active_inv (ts : List Transaction) : (activeWith ts).Inv where
  addrWidth_pos := by show 1 ≤ active.addrWidth; decide +kernel
  addrWidth_le := by show active.addrWidth ≤ 64; decide +kernel
  slots_pos := by show 1 ≤ active.slots.length; decide +kernel
  slots_le := by show active.slots.length ≤ 16; decide +kernel
  mem_wf := by show active.mem.wf; decide +kernel
  mem_in_space := by show ∀ x ∈ active.mem, x.1 < 2 ^ active.addrWidth; decide +kernel
  status_legal := by show active.StatusLegal; decide +kernel
  clear_while_running := fun _ => ⟨rfl, rfl⟩
  faddr_fits := by show active.faddr.toNat < 2 ^ active.addrWidth; decide +kernel
  active_slots := by
    show ∀ sl ∈ active.slots, sl.phase = .active → sl.blen ≤ 63 ∧ sl.tbl.toNat % 8 = 0 ∧ sl.blen = sl.tbl.toNat / 8 % 64
    decide +kernel
  blen_le := by show ∀ sl ∈ active.slots, sl.blen ≤ 64; decide +kernel

theorem witness_StepKeepsTheInvariant : (activeWith [.hostWrite 0xFFFF 1]).Inv ∧
    ∃ t, step (activeWith [.hostWrite 0xFFFF 1]) = .next t ∧ (t.mem.read 0xFFFF == 1) = true :=
  ⟨active_inv _, of_check (p := fun t => t.mem.read 0xFFFF == 1) (by decide +kernel)⟩
theorem witness_SlotsHoldMessages : (activeWith [.command ⟨0x2, 0x100, 0, 3⟩]).SlotsHoldMessages ∧
    ∃ t, step (activeWith [.command ⟨0x2, 0x100, 0, 3⟩]) = .next t ∧ (!t.halted) = true := by
  refine ⟨fun sl h hp => ?_, of_check (p := fun t => !t.halted) (by decide +kernel)⟩
  have h : sl ∈ [Slot.initial, Slot.reset] := h
  rw [List.mem_cons, List.mem_singleton] at h
  rcases h with rfl | rfl
  · exact ⟨[], initial_holds⟩
  · cases hp
theorem witness_StatusStaysLegal : (issued 0x2).StatusLegal ∧
    ∃ t, step (issued 0x2) = .next t ∧ (t.status == 0x31) = true :=
  ⟨by decide +kernel, of_check (p := fun t => t.status == 0x31) (by decide +kernel)⟩
theorem witness_SlotsAreIndependent : namedSlot (.append 0 0x100 3) ≠ some 1 ∧
    ∃ t, exec (.append 0 0x100 3) active = .next t ∧ (!t.halted) = true :=
  ⟨by decide +kernel, of_check (p := fun t => !t.halted) (by decide +kernel)⟩
theorem witness_HostMemoryFrame : ¬ MayWrite (.finish 0 0x200) 0x220 ∧ ¬ MayWrite (.finish 0 0x200) 0x1FF ∧
    ∃ t, exec (.finish 0 0x200) active = .next t ∧ (!t.halted) = true :=
  ⟨by unfold MayWrite; decide, by unfold MayWrite; decide, of_check (p := fun t => !t.halted) (by decide +kernel)⟩
theorem witness_CommandsReadOnlyTheirRange : active.mem.wf ∧ Memory.wf (active.mem.write 0x103 9) ∧
    (∀ a, MayRead (.append 0 0x100 3) a → (active.mem.write 0x103 9).read a = active.mem.read a) ∧
    ∃ t, exec (.append 0 0x100 3) active = .next t ∧ (!t.halted) = true := by
  refine ⟨by decide +kernel, by decide +kernel, fun a h => ?_, of_check (p := fun t => !t.halted) (by decide +kernel)⟩
  have h : 0x100 ≤ a ∧ a < 0x103 := h
  have : a = 0x100 ∨ a = 0x101 ∨ a = 0x102 := by omega
  rcases this with rfl | rfl | rfl <;> decide +kernel

/-- `active` with other bytes at and above blen in slot 0 and other values in the slot that is not ACTIVE. -/
def disguised : State :=
  { activeWith [.command ⟨0x2, 0x100, 0, 3⟩] with
    slots := [{ Slot.initial with buf := Vector.replicate 64 7 },
      { Slot.reset with h := Vector.replicate 8 5, blen := 64, tbl := 3 }]
    freeCount := 9 }

theorem witness_ValuelessFields : (activeWith [.command ⟨0x2, 0x100, 0, 3⟩]).Inv ∧ disguised.Inv ∧
    (activeWith [.command ⟨0x2, 0x100, 0, 3⟩]).Alike disguised ∧
    ∃ t, step (activeWith [.command ⟨0x2, 0x100, 0, 3⟩]) = .next t ∧ (!t.halted) = true := by
  refine ⟨active_inv _, ⟨?_, ?_, ?_, ?_, ?_, ?_, ?_, fun _ => ⟨rfl, rfl⟩, ?_, ?_, ?_⟩,
    ⟨rfl, rfl, ?_, rfl, rfl, rfl, rfl, rfl, rfl⟩, of_check (p := fun t => !t.halted) (by decide +kernel)⟩
  all_goals try decide +kernel
  refine .cons ⟨rfl, fun _ => rfl, fun _ => rfl, fun _ => rfl, fun _ => rfl⟩ (.cons ?_ .nil)
  constructor <;> first | rfl | exact fun h => by cases h

/-- The last round constant, hash word, byte of a word, bit of a word, and byte of the length suffix. -/
theorem witness_indexes : 63 < 64 ∧ 7 < 8 ∧ 3 < 4 ∧ 31 < 32 := by decide
theorem witness_Rotation : 1 ≤ 31 ∧ 31 ≤ 31 ∧ 31 < 32 := by decide +kernel
theorem witness_Padding : ([] : List Byte).length < 2 ^ 61 := by decide +kernel
theorem witness_LengthSuffix : (zeroBytes 63).length ≤ 63 := by decide +kernel

end Sys2Proof.Tests
end

-- The statements of 00_scope.md: the parameters of R7 and R8, and the reset state of every machine they allow.
section

namespace Sys2Proof.Machine

/-! ### The reset state meets the invariant -/

theorem eq_reset_of_mem_resetOf_slots {c : Config} {sl : Slot} (h : sl ∈ (State.resetOf c).slots) : sl = Slot.reset :=
  List.eq_of_mem_replicate h

/-- The reset state of every machine of R7 meets the invariant: its slots are UNINIT and its memory lists nothing. -/
theorem resetOf_inv {c : Config} (hc : c.Valid) : (State.resetOf c).Inv := by
  obtain ⟨hwidth_pos, hwidth_le, hcontexts_pos, hcontexts_le⟩ := hc
  exact {
    addrWidth_pos := hwidth_pos
    addrWidth_le := hwidth_le
    slots_pos := by simpa using hcontexts_pos
    slots_le := by simpa using hcontexts_le
    mem_wf := resetOf_mem_wf c
    mem_in_space := by simp
    status_legal := by simp [State.StatusLegal]
    clear_while_running := fun _ => ⟨rfl, rfl⟩
    faddr_fits := by simp
    active_slots := fun sl hsl hactive => by
      obtain rfl := eq_reset_of_mem_resetOf_slots hsl
      cases hactive
    blen_le := fun sl hsl => by
      obtain rfl := eq_reset_of_mem_resetOf_slots hsl
      exact Nat.zero_le 64 }

/-! ### Every transaction keeps the parameters -/

/-- `t` is a state of the same machine as `s`: the same ADDR_WIDTH, Admit and NUM_CONTEXTS (R7, R8). -/
def State.SameParameters (s t : State) : Prop :=
  t.addrWidth = s.addrWidth ∧ t.refused = s.refused ∧ t.slots.length = s.slots.length

theorem State.SameParameters.refl (s : State) : s.SameParameters s := ⟨rfl, rfl, rfl⟩

theorem raise_sameParameters (s : State) (cw : Word) (f : FaultReport) : s.SameParameters (s.raise cw f) :=
  ⟨rfl, rfl, rfl⟩

theorem answer_sameParameters (s : State) (r : Reply) : s.SameParameters (s.answer r) := ⟨rfl, rfl, rfl⟩

theorem hostWrite_sameParameters (a : Addr) (b : Byte) (s : State) : s.SameParameters (hostWrite a b s) :=
  ⟨rfl, rfl, rfl⟩

/-- RESET empties every slot and removes none (R116). -/
theorem resetEngine_sameParameters (s : State) : s.SameParameters (resetEngine s) :=
  ⟨rfl, rfl, List.length_mapIdx⟩

theorem commandEffect_sameParameters (i : Instr) (s : State) : s.SameParameters (commandEffect i s) := by
  obtain ⟨hwidth, hrefused, hslots, -⟩ := commandEffect_frame i s
  exact ⟨hwidth, hrefused, hslots⟩

theorem performCommand_sameParameters {c : Command} {s t : State} (h : performCommand c s = .next t) :
    s.SameParameters t := by
  obtain ⟨-, rfl⟩ | ⟨-, f, -, cw, rfl⟩ | ⟨-, i, -, -, rfl⟩ := performCommand_cases h
  · exact .refl _
  · exact raise_sameParameters s cw f
  · exact commandEffect_sameParameters i s

theorem transact_sameParameters {x : Transaction} {s t : State} (h : transact x s = .next t) :
    s.SameParameters t := by
  cases x with
  | command c => exact performCommand_sameParameters h
  | readStatus => cases h; exact answer_sameParameters s _
  | reset => cases h; exact resetEngine_sameParameters s
  | hostRead a => cases h; exact answer_sameParameters s _
  | hostWrite a b => cases h; exact hostWrite_sameParameters a b s

/-- Where a next state comes from: the engine waited, or the oldest issued transaction exists and took effect after
it left the inbox (R28, R50). -/
theorem step_next {s t : State} (h : step s = .next t) :
    (s.inbox = [] ∧ t = s) ∨
    ∃ x rest, s.inbox = x :: rest ∧ x.fits s.addrWidth = true ∧ transact x { s with inbox := rest } = .next t := by
  obtain ⟨hempty, hs⟩ | ⟨x, rest, hinbox, ⟨hfits, hs⟩ | ⟨-, hs⟩⟩ := step_cases s <;> rw [hs] at h
  · cases h; exact .inl ⟨hempty, rfl⟩
  · exact .inr ⟨x, rest, hinbox, hfits, h⟩
  · cases h

/-- Taking a transaction from the inbox touches no parameter, so what its effect keeps, the step keeps. -/
theorem step_sameParameters {s t : State} (h : step s = .next t) : s.SameParameters t := by
  obtain ⟨-, rfl⟩ | ⟨x, rest, -, -, hx⟩ := step_next h
  · exact .refl _
  · have hkept : State.SameParameters { s with inbox := rest } t := transact_sameParameters hx
    exact hkept

end Sys2Proof.Machine

open Sys2Proof.Machine

/-- Settles O10: each kind of transaction keeps the parameters, a command by the frame of its effect. -/
theorem parametersNeverChange : Obligations.ParametersNeverChange := by
  unfold Obligations.ParametersNeverChange
  exact fun _ _ => step_sameParameters

/-- Settles O36: the ranges of R7 give the bounds, and no slot is ACTIVE right after reset. -/
theorem resetStateMeetsTheInvariant : Obligations.ResetStateMeetsTheInvariant := by
  unfold Obligations.ResetStateMeetsTheInvariant
  exact fun _ => resetOf_inv

end

-- The statements of 10_state.md: the invariant of the machine, STATUS and the fault record, the slots, ReadStatus.
section

namespace Sys2Proof

/-! ### The fields of a command word -/

/-- `OP` of an instruction's command word (R58). -/
def Instr.opcode : Instr → BitVec 4
  | .init _ => 1
  | .append _ _ _ => 2
  | .finish _ _ => 3
  | .digest _ _ => 4
  | .selfDigest _ => 5

/-- `CTX` of an instruction's command word, 0 where it names no slot (R58, R60). -/
def Instr.context : Instr → BitVec 4
  | .init c => c
  | .append c _ _ => c
  | .finish c _ => c
  | .digest _ _ => 0
  | .selfDigest _ => 0

/-- The command word of the given `OP` and `CTX`, with `RSV` 0 (R57). -/
def commandWord (op ctx : BitVec 4) : Word := op.setWidth 32 ||| (ctx.setWidth 32 <<< 4)

theorem encodeWord_eq_commandWord (i : Instr) : encodeWord i = commandWord i.opcode i.context := by
  cases i <;> simp [encodeWord, commandWord, Instr.opcode, Instr.context]

@[simp] theorem rsvField_commandWord (op ctx : BitVec 4) : rsvField (commandWord op ctx) = 0 := by
  ext j hj
  have hop : op.getLsbD (8 + j) = false := BitVec.getLsbD_of_ge op _ (by omega)
  have hctx : ctx.getLsbD (8 + j - 4) = false := BitVec.getLsbD_of_ge ctx _ (by omega)
  simp [rsvField, commandWord, hop, hctx]

@[simp] theorem opField_commandWord (op ctx : BitVec 4) : opField (commandWord op ctx) = op := by
  ext j hj
  simp [opField, commandWord, show j < 32 by omega, hj]

@[simp] theorem ctxField_commandWord (op ctx : BitVec 4) : ctxField (commandWord op ctx) = ctx := by
  ext j hj
  simp [ctxField, commandWord, show 4 + j < 32 by omega, hj]

/-- A word without reserved bits is made of its OP and CTX fields (R57). -/
theorem commandWord_fields {cw : Word} (h : rsvField cw = 0) : commandWord (opField cw) (ctxField cw) = cw := by
  ext j hj
  have hrsv : 8 ≤ j → cw[j] = false := fun h8 => by
    have hbit := congrArg (fun r => r.getLsbD (j - 8)) h
    simpa [rsvField, show 8 + (j - 8) = j by omega, hj, show j - 8 < 24 by omega] using hbit
  rcases Nat.lt_or_ge j 4 with hop | h4
  · simp [commandWord, opField, ctxField, hop, hj]
  · rcases Nat.lt_or_ge j 8 with hctx | h8
    · simp [commandWord, opField, ctxField, Nat.not_lt.mpr h4, show 4 + (j - 4) = j by omega,
        show j - 4 < 4 by omega, hj]
    · simp [commandWord, opField, ctxField, Nat.not_lt.mpr h4, show ¬ j - 4 < 4 by omega, hrsv h8]

/-! ### Decoding and encoding agree -/

/-- What a legal word's fields say of the instruction it decodes to (R57, R59, R60). -/
theorem fields_of_decode {c : Command} {i : Instr} (h : decode c = .legal i) :
    rsvField c.cw = 0 ∧ opField c.cw = i.opcode ∧ ctxField c.cw = i.context := by
  unfold decode at h
  split at h
  · cases h
  · rename_i hrsv
    refine ⟨not_not.mp hrsv, ?_⟩
    split at h
    · rename_i hop; cases h; exact ⟨BitVec.eq_of_toNat_eq hop, rfl⟩
    · rename_i hop; cases h; exact ⟨BitVec.eq_of_toNat_eq hop, rfl⟩
    · rename_i hop; cases h; exact ⟨BitVec.eq_of_toNat_eq hop, rfl⟩
    · rename_i hop
      split at h
      · rename_i hctx; cases h; exact ⟨BitVec.eq_of_toNat_eq hop, hctx⟩
      · cases h
    · rename_i hop
      split at h
      · rename_i hctx; cases h; exact ⟨BitVec.eq_of_toNat_eq hop, hctx⟩
      · cases h
    · cases h

/-- A legal word is the encoder's word for what it decodes to (R57, R63), so fault entry records it as issued (R24). -/
theorem encodeWord_of_decode {c : Command} {i : Instr} (h : decode c = .legal i) : encodeWord i = c.cw := by
  obtain ⟨hrsv, hop, hctx⟩ := fields_of_decode h
  rw [encodeWord_eq_commandWord, ← hop, ← hctx, commandWord_fields hrsv]

/-- The decoder reads an instruction back from its encoding (R63, R64). -/
theorem decode_encode (i : Instr) : decode (encode i) = .legal i := by
  cases i <;> simp [decode, encode, encodeWord_eq_commandWord, Instr.opcode, Instr.context]

@[simp] theorem addrFits_zero (w : Nat) : addrFits w 0#64 = true := by
  simp [addrFits]

/-- The encoding of a well-formed instruction is a command of the machine: its ignored operands are 0 (R56, R64). -/
theorem encode_fits {i : Instr} {w : Nat} (h : i.wellFormed w = true) : (encode i).fits w = true := by
  cases i with
  | init c => simp [encode, Command.fits]
  | append c src len => simpa [encode, Command.fits, Instr.wellFormed] using h
  | finish c dst => simpa [encode, Command.fits, Instr.wellFormed] using h
  | digest src dst => exact h
  | selfDigest src => simpa [encode, Command.fits, Instr.wellFormed] using h

end Sys2Proof

namespace Sys2Proof.Machine

/-! ### The address a failing check reports is an address of the machine -/

/-- If the check fails, the FADDR it reports has `w` bits (R25). -/
def ReportFits (w : Nat) (o : Option FaultReport) : Prop := ∀ f, o = some f → f.faddr.toNat < 2 ^ w

theorem reportFits_none (w : Nat) : ReportFits w none := fun _ h => by cases h

/-- Every cause but ADDRESS_RANGE and MEMORY_FAULT reports FADDR 0 (R98). -/
theorem reportFits_zero (w : Nat) (cause : Cause) : ReportFits w (some { cause := cause, faddr := 0 }) := fun f h => by
  cases h
  simp

/-- A check that comes later runs only when the one before it has passed (R106). -/
theorem ReportFits.orElse {w : Nat} {x y : Option FaultReport} (hx : ReportFits w x)
    (hy : x = none → ReportFits w y) : ReportFits w (x <|> y) := by
  cases x with
  | none => simpa using hy rfl
  | some f => simpa using hx

/-- ADDRESS_RANGE reports the base it was given (R104). -/
theorem rangeFault_fits {s : State} {a : Addr} (n : Nat) (ha : addrFits s.addrWidth a = true) :
    ReportFits s.addrWidth (rangeFault a n s) := by
  intro f h
  unfold rangeFault at h
  split at h
  · cases h
    simpa [addrFits] using ha
  · cases h

/-- MEMORY_FAULT reports an address of its range, which has been found to lie in the address space (R105, R106). -/
theorem admitFault_fits {s : State} {a : Addr} {n : Nat} (k : AccessKind) (hs : s.InSpace a n) :
    ReportFits s.addrWidth (admitFault k a n s) := by
  intro f h
  unfold admitFault at h
  split at h
  · rename_i b hb
    cases h
    obtain ⟨-, hlt, -⟩ := (firstRefused_eq_some s k b n a.toNat).mp hb
    calc (BitVec.ofNat 64 b).toNat ≤ b := by simpa using Nat.mod_le b _
      _ < 2 ^ s.addrWidth := by omega
  · cases h

theorem lengthFault_fits (w : Nat) (len : U64) (sl : Slot) : ReportFits w (lengthFault len sl) := by
  unfold lengthFault
  split
  · exact reportFits_zero w _
  · exact reportFits_none w

theorem contextFault_fits (w : Nat) (c : BitVec 4) (s : State) : ReportFits w (contextFault c s) := by
  unfold contextFault
  split
  · exact reportFits_zero w _
  · exact reportFits_none w

theorem activeSlotFault_fits {w : Nat} {rest : Slot → Option FaultReport} (h : ∀ sl, ReportFits w (rest sl))
    (c : BitVec 4) (s : State) : ReportFits w (activeSlotFault c s rest) := by
  unfold activeSlotFault
  split
  · exact reportFits_zero w _
  · split
    · exact reportFits_zero w _
    · exact reportFits_zero w _
    · exact h _

/-- The address checks of one range, in their order (R106). -/
theorem rangeFault_orElse_admitFault_fits {s : State} {a : Addr} (k : AccessKind) (n : Nat)
    (ha : addrFits s.addrWidth a = true) : ReportFits s.addrWidth (rangeFault a n s <|> admitFault k a n s) :=
  (rangeFault_fits n ha).orElse fun h => admitFault_fits k ((rangeFault_eq_none a n s).mp h)

/-- A command whose operands are addresses of the machine reports an address of the machine (R25, R98). -/
theorem commandFault_fits {i : Instr} {s : State} (hi : i.wellFormed s.addrWidth = true) :
    ReportFits s.addrWidth (commandFault i s) := by
  cases i with
  | init c => exact contextFault_fits _ c s
  | append c src len =>
    refine activeSlotFault_fits (fun sl => (lengthFault_fits _ len sl).orElse fun _ => ?_) c s
    split
    · exact reportFits_none _
    · exact rangeFault_orElse_admitFault_fits .read len.toNat hi
  | finish c dst => exact activeSlotFault_fits (fun _ => rangeFault_orElse_admitFault_fits .write 32 hi) c s
  | digest src dst =>
    obtain ⟨hsrc, hdst⟩ : addrFits s.addrWidth src = true ∧ addrFits s.addrWidth dst = true := by
      simpa [Instr.wellFormed] using hi
    exact (rangeFault_fits 32 hsrc).orElse fun hs => (rangeFault_fits 32 hdst).orElse fun hd =>
      (admitFault_fits .read ((rangeFault_eq_none src 32 s).mp hs)).orElse fun _ =>
        admitFault_fits .write ((rangeFault_eq_none dst 32 s).mp hd)
  | selfDigest src =>
    exact (rangeFault_fits 32 hi).orElse fun hs =>
      have hspace := (rangeFault_eq_none src 32 s).mp hs
      (admitFault_fits .read hspace).orElse fun _ => admitFault_fits .write hspace

/-! ### The slot counters -/

/-- The counters of a slot (R20, R21): blen at most 64, and for an ACTIVE slot the bytes counted by tbl modulo 64. -/
structure Slot.Counted (sl : Slot) : Prop where
  blen_le : sl.blen ≤ 64
  active : sl.phase = .active → sl.blen ≤ 63 ∧ sl.tbl.toNat % 8 = 0 ∧ sl.blen = sl.tbl.toNat / 8 % 64

theorem initial_counted : Slot.initial.Counted := ⟨by decide, fun _ => by decide⟩

/-- A slot that is not ACTIVE has no counters to speak of but the range of blen. -/
theorem counted_of_not_active {sl : Slot} (hp : sl.phase ≠ .active) (hb : sl.blen ≤ 64) : sl.Counted :=
  ⟨hb, fun h => absurd h hp⟩

theorem empty_counted {p : Phase} (hp : p ≠ .active) (n : Nat) : (Slot.empty p n).Counted :=
  counted_of_not_active hp (Nat.lt_succ_iff.mp (Config.freeLength n).isLt)

/-- APPEND counts the bytes it absorbs (R73), given that its counter cannot wrap. -/
theorem absorb_counted {sl : Slot} {bs : List Byte} (h : sl.Counted) (hp : sl.phase = .active)
    (hlen : sl.tbl.toNat + 8 * bs.length < 2 ^ 64) : (sl.absorb bs).Counted := by
  obtain ⟨hb, hmul, hblen⟩ := h.active hp
  obtain ⟨-, htbl, hblen', -⟩ := foldl_absorbByte bs sl hb
  have hblen' : (sl.absorb bs).blen = (sl.blen + bs.length) % 64 := hblen'
  have htbl' : (sl.absorb bs).tbl.toNat = sl.tbl.toNat + 8 * bs.length := by
    simp only [Slot.absorb, htbl, BitVec.toNat_add, BitVec.toNat_ofNat]
    omega
  exact ⟨by omega, fun _ => by omega⟩

/-- Every slot is counted after a command that passes its checks. -/
theorem commandEffect_counted {i : Instr} {s : State} (hn : commandFault i s = none)
    (h : ∀ sl ∈ s.slots, sl.Counted) : ∀ sl ∈ (commandEffect i s).slots, sl.Counted := by
  obtain heq | ⟨c, old, new, hold, heq, hnew⟩ := commandEffect_slots i s hn
  · rwa [heq]
  · rw [heq]
    intro sl hsl
    obtain hsl | rfl := List.mem_or_eq_of_mem_set hsl
    · exact h sl hsl
    · obtain rfl | ⟨hp, hb⟩ | ⟨hp, bs, hlen, rfl⟩ := hnew
      · exact initial_counted
      · exact counted_of_not_active (by simp [hp]) hb
      · exact absorb_counted (h old (List.mem_of_getElem? hold)) hp hlen

/-! ### Every transaction keeps the invariant -/

theorem State.Inv.counted {s : State} (h : s.Inv) : ∀ sl ∈ s.slots, sl.Counted := fun sl hsl =>
  ⟨h.blen_le sl hsl, h.active_slots sl hsl⟩

/-- Which issued transactions are still to come, and what hosts were answered, is no part of the invariant. -/
theorem State.Inv.of_inbox_replies {s : State} (h : s.Inv) (inbox : List Transaction) (replies : List Reply) :
    State.Inv { s with inbox := inbox, replies := replies } :=
  { h with }

/-- Fault entry keeps the invariant when FADDR is an address of the machine: the engine then runs no more (R108). -/
theorem raise_inv {s : State} {f : FaultReport} (h : s.Inv) (cw : Word) (hf : f.faddr.toNat < 2 ^ s.addrWidth) :
    (s.raise cw f).Inv :=
  { h with
    status_legal := raise_statusLegal s cw f
    clear_while_running := fun hr => by simp [State.Running] at hr
    faddr_fits := hf }

/-- RESET keeps the invariant: it clears the record and leaves no slot ACTIVE (R116). -/
theorem resetEngine_inv {s : State} (h : s.Inv) : (resetEngine s).Inv := by
  have hcounted : ∀ sl ∈ (resetEngine s).slots, sl.Counted := by
    intro sl hsl
    obtain ⟨n, -, rfl⟩ := List.mem_mapIdx.mp hsl
    exact empty_counted (by decide) _
  exact { h with
    slots_pos := by simpa using h.slots_pos
    slots_le := by simpa using h.slots_le
    status_legal := by simp [State.StatusLegal]
    clear_while_running := fun _ => ⟨rfl, rfl⟩
    faddr_fits := by simp
    active_slots := fun sl hsl => (hcounted sl hsl).active
    blen_le := fun sl hsl => (hcounted sl hsl).blen_le }

theorem hostWrite_inv {s : State} {a : Addr} (h : s.Inv) (ha : addrFits s.addrWidth a = true) (b : Byte) :
    (hostWrite a b s).Inv :=
  { h with
    mem_wf := write_wf s.mem h.mem_wf a.toNat b
    mem_in_space := write_in_space s.mem _ a.toNat b h.mem_in_space (by simpa [addrFits] using ha) }

/-- A command's effect leaves host memory canonical and in the address space, since its range lies there (R38). -/
theorem commandEffect_mem_inv {i : Instr} {s : State} (h : s.Inv) (hn : commandFault i s = none) :
    (commandEffect i s).mem.wf ∧ ∀ x ∈ (commandEffect i s).mem, x.1 < 2 ^ s.addrWidth := by
  obtain heq | ⟨a, bs, hlen, heq, hspace, -⟩ := commandEffect_mem i s hn <;> rw [heq]
  · exact ⟨h.mem_wf, h.mem_in_space⟩
  · exact ⟨writeBytes_wf bs _ _ h.mem_wf, writeBytes_in_space bs _ _ _ h.mem_in_space (by rw [hlen]; exact hspace)⟩

/-- A command that passes its checks keeps the invariant. -/
theorem commandEffect_inv {i : Instr} {s : State} (h : s.Inv) (hn : commandFault i s = none) :
    (commandEffect i s).Inv := by
  obtain ⟨hwidth, -, hlength, hstatus, hfcmd, hfaddr, -⟩ := commandEffect_frame i s
  obtain ⟨hwf, hspace⟩ := commandEffect_mem_inv h hn
  have hcounted := commandEffect_counted hn h.counted
  exact {
    addrWidth_pos := hwidth ▸ h.addrWidth_pos
    addrWidth_le := hwidth ▸ h.addrWidth_le
    slots_pos := hlength ▸ h.slots_pos
    slots_le := hlength ▸ h.slots_le
    mem_wf := hwf
    mem_in_space := by rwa [hwidth]
    status_legal := by rw [State.StatusLegal, hstatus]; exact h.status_legal
    clear_while_running := by
      rw [State.Running, halted_congr hstatus, hfcmd, hfaddr]
      exact h.clear_while_running
    faddr_fits := by rw [hwidth, hfaddr]; exact h.faddr_fits
    active_slots := fun sl hsl => (hcounted sl hsl).active
    blen_le := fun sl hsl => (hcounted sl hsl).blen_le }

theorem performCommand_inv {c : Command} {s t : State} (h : s.Inv) (hc : c.fits s.addrWidth = true)
    (ht : performCommand c s = .next t) : t.Inv := by
  obtain ⟨-, rfl⟩ | ⟨-, f, hf, cw, rfl⟩ | ⟨-, i, -, hn, rfl⟩ := performCommand_cases ht
  · exact h
  · refine raise_inv h cw ?_
    obtain rfl | ⟨i, hi, hf⟩ := hf
    · simp
    · exact commandFault_fits (wellFormed_of_decode hi hc) f hf
  · exact commandEffect_inv h hn

theorem transact_inv {x : Transaction} {s t : State} (h : s.Inv) (hx : x.fits s.addrWidth = true)
    (ht : transact x s = .next t) : t.Inv := by
  cases x with
  | command c => exact performCommand_inv h hx ht
  | readStatus => cases ht; exact h.of_inbox_replies s.inbox _
  | reset => cases ht; exact resetEngine_inv h
  | hostRead a => cases ht; exact h.of_inbox_replies s.inbox _
  | hostWrite a b => cases ht; exact hostWrite_inv h hx b

theorem step_inv {s t : State} (h : s.Inv) (ht : step s = .next t) : t.Inv := by
  obtain ⟨-, rfl⟩ | ⟨x, rest, -, hfits, hx⟩ := step_next ht
  · exact h
  · exact transact_inv (h.of_inbox_replies rest s.replies) hfits hx

/-! ### Who writes STATUS and the fault record -/

/-- A command of a running engine ends in fault entry with its own word, or in the effect of what it decodes to. -/
theorem performCommand_running {c : Command} {s t : State} (hr : s.Running) (h : performCommand c s = .next t) :
    (∃ f, t = s.raise c.cw f) ∨ ∃ i, t = commandEffect i s := by
  unfold performCommand at h
  split at h
  · rename_i i hi
    obtain ⟨hhalted, -⟩ | ⟨-, f, -, rfl⟩ | ⟨-, -, rfl⟩ := exec_next h
    · exact absurd hr (by simp [hhalted])
    · exact .inl ⟨f, by rw [encodeWord_of_decode hi]⟩
    · exact .inr ⟨i, rfl⟩
  · rw [performIllegal_running c.cw hr] at h
    cases h
    exact .inl ⟨_, rfl⟩

theorem commandEffect_status (i : Instr) (s : State) : (commandEffect i s).status = s.status := by
  obtain ⟨-, -, -, hstatus, -⟩ := commandEffect_frame i s
  exact hstatus

theorem performCommand_status {c : Command} {s t : State} (h : performCommand c s = .next t) :
    t.status = s.status ∨ (s.Running ∧ ∃ cause, t.status = faultStatus cause) := by
  obtain ⟨-, rfl⟩ | ⟨hr, f, -, cw, rfl⟩ | ⟨-, i, -, -, rfl⟩ := performCommand_cases h
  · exact .inl rfl
  · exact .inr ⟨hr, f.cause, rfl⟩
  · exact .inl (commandEffect_status i s)

theorem transact_status {x : Transaction} {s t : State} (h : transact x s = .next t) :
    t.status = s.status ∨ (s.Running ∧ ∃ cause, t.status = faultStatus cause) ∨ (x = .reset ∧ t.status = 0) := by
  cases x with
  | command c => exact (performCommand_status h).imp_right .inl
  | reset => cases h; exact .inr (.inr ⟨rfl, rfl⟩)
  | readStatus => cases h; exact .inl rfl
  | hostRead a => cases h; exact .inl rfl
  | hostWrite a b => cases h; exact .inl rfl

/-- Only fault entry of a running engine and RESET write STATUS (R23). -/
theorem step_status {s t : State} (h : step s = .next t) :
    t.status = s.status ∨ (s.Running ∧ ∃ cause, t.status = faultStatus cause) ∨
      ((∃ rest, s.inbox = .reset :: rest) ∧ t.status = 0) := by
  obtain ⟨-, rfl⟩ | ⟨x, rest, hinbox, -, hx⟩ := step_next h
  · exact .inl rfl
  · obtain hsame | ⟨hr, hcause⟩ | ⟨rfl, hzero⟩ := transact_status hx
    · exact .inl hsame
    · exact .inr (.inl ⟨hr, hcause⟩)
    · exact .inr (.inr ⟨⟨rest, hinbox⟩, hzero⟩)

/-! ### A slot a command does not name -/

/-- Slot `k` replaced by `x`, which changes nothing when there is no such slot. -/
def State.setSlot (s : State) (k : Nat) (x : Slot) : State := { s with slots := s.slots.set k x }

theorem slot?_setSlot {c : BitVec 4} {k : Nat} (h : c.toNat ≠ k) (s : State) (x : Slot) :
    (s.setSlot k x).slot? c = s.slot? c :=
  List.getElem?_set_ne h.symm

theorem firstRefused_setSlot (s : State) (k : Nat) (x : Slot) (kind : AccessKind) (n : Nat) :
    ∀ a, (s.setSlot k x).firstRefused kind a n = s.firstRefused kind a n := by
  induction n with
  | zero => exact fun _ => rfl
  | succ n ih =>
    intro a
    simp only [State.firstRefused, ih]
    rfl

theorem admitFault_setSlot (s : State) (k : Nat) (x : Slot) (kind : AccessKind) (a : Addr) (n : Nat) :
    admitFault kind a n (s.setSlot k x) = admitFault kind a n s := by
  simp only [admitFault, firstRefused_setSlot]

theorem rangeFault_setSlot (s : State) (k : Nat) (x : Slot) (a : Addr) (n : Nat) :
    rangeFault a n (s.setSlot k x) = rangeFault a n s := rfl

/-- No check reads a slot the command does not name (R16). -/
theorem commandFault_setSlot {i : Instr} {k : Nat} (h : namedSlot i ≠ some k) (s : State) (x : Slot) :
    commandFault i (s.setSlot k x) = commandFault i s := by
  cases i with
  | init c =>
    have hc : c.toNat ≠ k := by simpa [namedSlot] using h
    simp only [commandFault, contextFault, slot?_setSlot hc]
  | append c src len =>
    have hc : c.toNat ≠ k := by simpa [namedSlot] using h
    simp only [commandFault, appendFault, activeSlotFault, slot?_setSlot hc, rangeFault_setSlot, admitFault_setSlot]
  | finish c dst =>
    have hc : c.toNat ≠ k := by simpa [namedSlot] using h
    simp only [commandFault, finishFault, activeSlotFault, slot?_setSlot hc, rangeFault_setSlot, admitFault_setSlot]
  | digest src dst => simp only [commandFault, digestFault, rangeFault_setSlot, admitFault_setSlot]
  | selfDigest src => simp only [commandFault, selfDigestFault, rangeFault_setSlot, admitFault_setSlot]

/-- Rewriting one slot and replacing another commute. -/
theorem updateSlot_setSlot {c : BitVec 4} {k : Nat} (h : c.toNat ≠ k) (s : State) (x : Slot) (f : Slot → Slot) :
    (s.setSlot k x).updateSlot c f = (s.updateSlot c f).setSlot k x := by
  have hslots : (s.slots.set k x).modify c.toNat f = (s.slots.modify c.toNat f).set k x := by
    apply List.ext_getElem?
    grind
  simp only [State.setSlot, State.updateSlot, hslots]

theorem finishEffect_setSlot {c : BitVec 4} {k : Nat} (h : c.toNat ≠ k) (s : State) (x : Slot) (dst : Addr) :
    finishEffect c dst (s.setSlot k x) = (finishEffect c dst s).setSlot k x := by
  unfold finishEffect
  rw [slot?_setSlot h]
  cases s.slot? c with
  | none => rfl
  | some sl =>
    simp only [updateSlot_setSlot h]
    simp only [State.setSlot]

/-- No effect depends on a slot the command does not name, or touches what has been put there (R16). -/
theorem commandEffect_setSlot {i : Instr} {k : Nat} (h : namedSlot i ≠ some k) (s : State) (x : Slot) :
    commandEffect i (s.setSlot k x) = (commandEffect i s).setSlot k x := by
  cases i with
  | init c => exact updateSlot_setSlot (by simpa [namedSlot] using h) s x _
  | append c src len => exact updateSlot_setSlot (by simpa [namedSlot] using h) s x _
  | finish c dst => exact finishEffect_setSlot (by simpa [namedSlot] using h) s x dst
  | digest src dst => simp only [commandEffect, State.setSlot]
  | selfDigest src => simp only [commandEffect, State.setSlot]

/-- A command performed after slot `k`, which it does not name, has been replaced (R16). -/
theorem exec_setSlot {i : Instr} {k : Nat} {s t : State} (h : namedSlot i ≠ some k) (x : Slot)
    (ht : exec i s = .next t) : exec i (s.setSlot k x) = .next (t.setSlot k x) := by
  obtain ⟨hhalted, rfl⟩ | ⟨hr, f, hf, rfl⟩ | ⟨hr, hn, rfl⟩ := exec_next ht
  · exact exec_halted i hhalted
  · exact exec_failing hr ((commandFault_setSlot h s x).trans hf)
  · rw [← commandEffect_setSlot h]
    exact exec_effect hr ((commandFault_setSlot h s x).trans hn)

/-- No effect writes a slot the command does not name (R16). -/
theorem commandEffect_other_slot {i : Instr} {k : Nat} (h : namedSlot i ≠ some k) (s : State) :
    (commandEffect i s).slots[k]? = s.slots[k]? := by
  cases i with
  | init c =>
    have hc : c.toNat ≠ k := by simpa [namedSlot] using h
    simp [commandEffect, hc]
  | append c src len =>
    have hc : c.toNat ≠ k := by simpa [namedSlot] using h
    simp [commandEffect, hc]
  | finish c dst =>
    have hc : c.toNat ≠ k := by simpa [namedSlot] using h
    simp only [commandEffect, finishEffect]
    split
    · rfl
    · simp [hc]
  | digest src dst => simp only [commandEffect]
  | selfDigest src => simp only [commandEffect]

theorem exec_other_slot {i : Instr} {k : Nat} {s t : State} (h : namedSlot i ≠ some k) (ht : exec i s = .next t) :
    t.slots[k]? = s.slots[k]? := by
  obtain ⟨-, rfl⟩ | ⟨-, f, -, rfl⟩ | ⟨-, -, rfl⟩ := exec_next ht
  · rfl
  · rfl
  · exact commandEffect_other_slot h s

/-! ### The step of a command -/

theorem performCommand_of_decode {c : Command} {i : Instr} (h : decode c = .legal i) (s : State) :
    performCommand c s = exec i s := by
  simp only [performCommand, h]

theorem step_of_command {s : State} {c : Command} {i : Instr} {rest : List Transaction}
    (hinbox : s.inbox = .command c :: rest) (hfits : c.fits s.addrWidth = true) (hi : decode c = .legal i) :
    step s = exec i { s with inbox := rest } :=
  (step_of_inbox hinbox hfits).trans (performCommand_of_decode hi _)

/-- What is left of a step of an issued command when it has a next state: the command took effect. -/
theorem performCommand_of_step {s t : State} {c : Command} {rest : List Transaction}
    (hinbox : s.inbox = .command c :: rest) (h : step s = .next t) :
    performCommand c { s with inbox := rest } = .next t := by
  obtain ⟨hempty, -⟩ | ⟨x, rest', hinbox', -, hx⟩ := step_next h
  · simp [hinbox] at hempty
  · obtain ⟨rfl, rfl⟩ : .command c = x ∧ rest = rest' := by simpa [hinbox] using hinbox'
    exact hx

end Sys2Proof.Machine

open Sys2Proof Sys2Proof.Machine

/-- Settles O37: taking a transaction from the inbox keeps the invariant, and so does each kind of transaction; a
command by fault entry with an address of the machine, or by its effect on the slots and on host memory. -/
theorem stepKeepsTheInvariant : Obligations.StepKeepsTheInvariant := by
  unfold Obligations.StepKeepsTheInvariant
  exact fun _ _ => step_inv

/-- Settles O22: a command of a running engine ends in fault entry with its own word, which halts, or in an effect,
which leaves the record alone and the engine running. -/
theorem faultRecordHoldsTheIssuedWord : Obligations.FaultRecordHoldsTheIssuedWord := by
  unfold Obligations.FaultRecordHoldsTheIssuedWord
  intro s t cmd rest hr hinbox hstep
  have hrun : State.Running { s with inbox := rest } := hr
  obtain ⟨f, rfl⟩ | ⟨i, rfl⟩ := performCommand_running hrun (performCommand_of_step hinbox hstep)
  · exact ⟨fun _ => rfl, fun hrunning => by simp at hrunning⟩
  · obtain ⟨-, -, -, hstatus, hfcmd, hfaddr, -⟩ := commandEffect_frame i { s with inbox := rest }
    have hhalted := (halted_congr hstatus).trans hrun
    exact ⟨fun h => by simp [hhalted] at h, fun _ => ⟨hfcmd, hfaddr, hstatus⟩⟩

/-- Settles O39: STATUS is kept, or written with a cause by fault entry of a running engine, or cleared by RESET. -/
theorem statusStaysLegal : Obligations.StatusStaysLegal := by
  unfold Obligations.StatusStaysLegal
  intro s t hlegal hstep
  obtain hsame | ⟨hr, cause, hfault⟩ | ⟨hreset, hzero⟩ := step_status hstep
  · exact ⟨by rwa [State.StatusLegal, hsame], fun hne => absurd hsame hne⟩
  · refine ⟨?_, fun _ => .inl ⟨hr, ?_⟩⟩
    · rw [State.StatusLegal, hfault]
      exact raise_statusLegal s 0 { cause := cause, faddr := 0 }
    · rw [State.halted, hfault]
      exact faultStatus_halted cause
  · exact ⟨by simp [State.StatusLegal, hzero], fun _ => .inr ⟨hreset, hzero⟩⟩

/-- Settles O40: no check and no effect reads or writes a slot the command does not name. -/
theorem slotsAreIndependent : Obligations.SlotsAreIndependent := by
  unfold Obligations.SlotsAreIndependent
  exact fun _ _ _ _ x hi ht => ⟨exec_setSlot hi x ht, exec_other_slot hi ht⟩

/-- Settles O6: a step is what its transaction does, and the decoder reads an instruction back from its encoding. -/
theorem stepPerformsTheDecodedCommand : Obligations.StepPerformsTheDecodedCommand := by
  unfold Obligations.StepPerformsTheDecodedCommand
  exact ⟨fun _ _ _ _ hinbox hfits hi => step_of_command hinbox hfits hi,
    fun _ i _ hinbox hi => step_of_command hinbox (encode_fits hi) (decode_encode i)⟩

/-- Settles O8: ReadStatus names no address, so it always exists, and its effect is the answer alone. -/
theorem readStatusReturnsTheFaultRecord : Obligations.ReadStatusReturnsTheFaultRecord := by
  unfold Obligations.ReadStatusReturnsTheFaultRecord
  exact fun _ _ hinbox => step_of_inbox hinbox rfl

end

-- The statements of 20_memory.md: host accesses, what a command may write and may read, and the byte orders.
section

namespace Sys2Proof.Machine

/-! ### Byte orders -/

theorem getElem?_bytesBe32 (w : Word) {j : Nat} (hj : j < 4) :
    (bytesBe32 w)[j]? = some (w.extractLsb' (24 - 8 * j) 8) := by
  interval_cases j <;> rfl

theorem getElem_bytesBe64 (v : U64) {j : Nat} (hj : j < (bytesBe64 v).length) :
    (bytesBe64 v)[j] = v.extractLsb' (56 - 8 * j) 8 := by
  have h8 : j < 8 := hj
  interval_cases j <;> rfl

/-- Words laid out one after the other: byte 4i + j is byte j of word i. -/
theorem getElem?_flatMap_bytesBe32 {j : Nat} (hj : j < 4) (ws : List Word) : ∀ (i : Nat) (hi : i < ws.length),
    (ws.flatMap bytesBe32)[4 * i + j]? = (bytesBe32 ws[i])[j]? := by
  induction ws with
  | nil => intro i hi; cases hi
  | cons w ws ih =>
    intro i hi
    rw [List.flatMap_cons]
    cases i with
    | zero =>
      rw [Nat.mul_zero, Nat.zero_add, List.getElem?_append_left (by simpa using hj)]
      rfl
    | succ i =>
      rw [List.getElem?_append_right (by simp; omega), bytesBe32_length, show 4 * (i + 1) + j - 4 = 4 * i + j by omega]
      exact ih i (by simpa using hi)

/-- The digest is the hash words laid out in index order (R41). -/
theorem digestBytes_eq_flatMap (h : Hash) : digestBytes h = h.toList.flatMap bytesBe32 := by
  have hwords : h.toList = [h[0], h[1], h[2], h[3], h[4], h[5], h[6], h[7]] := by
    apply List.ext_getElem
    · simp
    · intro i hi _
      have h8 : i < 8 := by simpa using hi
      interval_cases i <;> simp
  simp [hwords, digestBytes]

/-- The last block FINISH compresses ends with the length suffix (R75). -/
theorem getLast?_finalBlocks (pending : List Byte) (bits : U64) :
    ∃ front : List Byte, front.length = 56 ∧
      (finalBlocks pending bits).getLast? = some (blockOfBytes (front ++ bytesBe64 bits)) := by
  simp only [finalBlocks]
  split
  · exact ⟨zeroBytes 56, zeroBytes_length 56, rfl⟩
  · rename_i hfits
    refine ⟨pending ++ [0x80] ++ zeroBytes (56 - (pending ++ [0x80]).length), ?_, rfl⟩
    rw [List.length_append, zeroBytes_length]
    omega

theorem getElem_blockOfBytes {l : List Byte} (h : l.length = 64) {k : Nat} (hk : k < 64) :
    (blockOfBytes l)[k] = l[k] := by
  rw [← Vector.getElem_toList (by simpa using hk)]
  simp only [blockOfBytes_toList h]

/-! ### What a command may write -/

/-- No command changes a byte outside the range it may write, whether it is performed, faults or is not performed
(R44, R45). -/
theorem exec_mem_read_of_not_mayWrite {s t : State} {i : Instr} {a : Nat} (h : exec i s = .next t)
    (ha : ¬ MayWrite i a) : t.mem.read a = s.mem.read a := by
  obtain ⟨-, rfl⟩ | ⟨-, f, -, rfl⟩ | ⟨-, hn, rfl⟩ := exec_next h
  · rfl
  · rfl
  · obtain heq | ⟨base, bs, hlen, heq, -, hrange⟩ := commandEffect_mem i s hn <;> rw [heq]
    have hout : Outside base 32 a := not_not.mp ((hrange a).not.mp ha)
    exact read_writeBytes_outside bs s.mem base.toNat a (by rwa [hlen])

/-! ### What a command may read -/

/-- The state with host memory replaced. -/
def State.withMem (s : State) (m : Memory) : State := { s with mem := m }

theorem slot?_withMem (c : BitVec 4) (s : State) (m : Memory) : (s.withMem m).slot? c = s.slot? c := rfl

theorem rangeFault_withMem (s : State) (m : Memory) (a : Addr) (n : Nat) :
    rangeFault a n (s.withMem m) = rangeFault a n s := rfl

theorem firstRefused_withMem (s : State) (m : Memory) (k : AccessKind) (n : Nat) :
    ∀ a, (s.withMem m).firstRefused k a n = s.firstRefused k a n := by
  induction n with
  | zero => exact fun _ => rfl
  | succ n ih =>
    intro a
    simp only [State.firstRefused, ih]
    rfl

theorem admitFault_withMem (s : State) (m : Memory) (k : AccessKind) (a : Addr) (n : Nat) :
    admitFault k a n (s.withMem m) = admitFault k a n s := by
  simp only [admitFault, firstRefused_withMem]

/-- No check reads host memory: Admit is of the address and the kind of access alone (R37). -/
theorem commandFault_withMem (i : Instr) (s : State) (m : Memory) :
    commandFault i (s.withMem m) = commandFault i s := by
  cases i with
  | init c => rfl
  | append c src len =>
    simp only [commandFault, appendFault, activeSlotFault, slot?_withMem, rangeFault_withMem, admitFault_withMem]
  | finish c dst =>
    simp only [commandFault, finishFault, activeSlotFault, slot?_withMem, rangeFault_withMem, admitFault_withMem]
  | digest src dst => simp only [commandFault, digestFault, rangeFault_withMem, admitFault_withMem]
  | selfDigest src => simp only [commandFault, selfDigestFault, rangeFault_withMem, admitFault_withMem]

/-- Over a memory that agrees on the bytes it may read, a command has the same effect on the engine and writes the same
bytes to the same range, none where it writes no host memory (R44, R54). -/
theorem commandEffect_withMem {i : Instr} {s : State} {m : Memory} (h : ∀ a, MayRead i a → m.read a = s.mem.read a) :
    ∃ base bs, (commandEffect i s).mem = writeBytes s.mem base bs ∧
      commandEffect i (s.withMem m) = (commandEffect i s).withMem (writeBytes m base bs) := by
  cases i with
  | init c => exact ⟨0, [], rfl, rfl⟩
  | append c src len =>
    have hread := readBytes_congr m s.mem len.toNat src.toNat fun a hlo hhi => h a ⟨hlo, hhi⟩
    refine ⟨0, [], rfl, ?_⟩
    simp only [commandEffect, hread, writeBytes, State.withMem, State.updateSlot]
  | finish c dst =>
    simp only [commandEffect, finishEffect, slot?_withMem]
    cases s.slot? c with
    | none => exact ⟨0, [], rfl, rfl⟩
    | some sl =>
      refine ⟨dst.toNat, digestBytes sl.finalHash, by simp only, ?_⟩
      simp only [State.withMem, State.updateSlot]
  | digest src dst =>
    have hread := readBytes_congr m s.mem 32 src.toNat fun a hlo hhi => h a ⟨hlo, hhi⟩
    refine ⟨dst.toNat, oneBlockDigest (readBytes s.mem src.toNat 32), by simp only [commandEffect], ?_⟩
    simp only [commandEffect, hread, State.withMem]
  | selfDigest src =>
    have hread := readBytes_congr m s.mem 32 src.toNat fun a hlo hhi => h a ⟨hlo, hhi⟩
    refine ⟨src.toNat, sha256 (readBytes s.mem src.toNat 32), by simp only [commandEffect], ?_⟩
    simp only [commandEffect, hread, State.withMem]

/-- The same bytes written to two memories: each byte reads alike afterwards, or was written in neither. -/
theorem read_writeBytes_alike_or_kept {m m' : Memory} (hm : m.wf) (hm' : m'.wf) (base : Nat) (bs : List Byte)
    (a : Nat) :
    (writeBytes m base bs).read a = (writeBytes m' base bs).read a ∨
      ((writeBytes m base bs).read a = m.read a ∧ (writeBytes m' base bs).read a = m'.read a) := by
  by_cases ha : a < base ∨ base + bs.length ≤ a
  · exact .inr ⟨read_writeBytes_outside bs m base a ha, read_writeBytes_outside bs m' base a ha⟩
  · obtain ⟨k, rfl⟩ : ∃ k, a = base + k := ⟨a - base, by omega⟩
    have hk : k < bs.length := by omega
    exact .inl ((read_writeBytes_inside bs m base k hm hk).trans (read_writeBytes_inside bs m' base k hm' hk).symm)

/-- A command performed over a memory that agrees on the bytes it may read: the outcomes differ in memory only, to which
both write the same bytes, none where the command has no effect (R45, R54). -/
theorem exec_withMem {i : Instr} {s t : State} {m : Memory} (h : ∀ a, MayRead i a → m.read a = s.mem.read a)
    (ht : exec i s = .next t) :
    ∃ base bs, t.mem = writeBytes s.mem base bs ∧
      exec i (s.withMem m) = .next (t.withMem (writeBytes m base bs)) := by
  obtain ⟨hhalted, rfl⟩ | ⟨hr, f, hf, rfl⟩ | ⟨hr, hn, rfl⟩ := exec_next ht
  · exact ⟨0, [], rfl, exec_halted i hhalted⟩
  · exact ⟨0, [], rfl, exec_failing hr ((commandFault_withMem i s m).trans hf)⟩
  · obtain ⟨base, bs, hmem, heffect⟩ := commandEffect_withMem h
    refine ⟨base, bs, hmem, ?_⟩
    rw [← heffect]
    exact exec_effect hr ((commandFault_withMem i s m).trans hn)

end Sys2Proof.Machine

open Sys2Proof Sys2Proof.Machine

/-- Settles O9: a host's access that exists takes effect alone, and a write keeps host memory canonical. -/
theorem hostAccessesArePlainMemory : Obligations.HostAccessesArePlainMemory := by
  unfold Obligations.HostAccessesArePlainMemory
  refine ⟨fun s a b rest hwf ha hinbox => ?_, fun s a rest ha hinbox => step_of_inbox hinbox ha⟩
  exact ⟨s.mem.write a.toNat b, step_of_inbox hinbox ha, write_wf s.mem hwf a.toNat b,
    read_write_same s.mem hwf a.toNat b, fun x hx => read_write_other s.mem a.toNat x b hx⟩

/-- Settles O41: fault entry and a halted engine touch no memory, and an effect writes its own range only. -/
theorem hostMemoryFrame : Obligations.HostMemoryFrame := by
  unfold Obligations.HostMemoryFrame
  exact fun _ _ _ _ => exec_mem_read_of_not_mayWrite

/-- Settles O42: both runs write the same bytes to the same range, since what is written is computed from the bytes the
command may read. -/
theorem commandsReadOnlyTheirRange : Obligations.CommandsReadOnlyTheirRange := by
  unfold Obligations.CommandsReadOnlyTheirRange
  intro s t i m hwf hwf' hagree ht
  obtain ⟨base, bs, hmem, hexec⟩ := exec_withMem hagree ht
  refine ⟨writeBytes m base bs, hexec, fun a => ?_⟩
  rw [hmem]
  exact read_writeBytes_alike_or_kept hwf' hwf base bs a

/-- Settles O52: the digest lays out the hash words in order, each most significant byte first. -/
theorem digestIsBigEndianByWord : Obligations.DigestIsBigEndianByWord := by
  unfold Obligations.DigestIsBigEndianByWord
  intro h
  refine ⟨digestBytes_length h, fun i j hi hj => ?_⟩
  rw [digestBytes_eq_flatMap, getElem?_flatMap_bytesBe32 hj h.toList i (by simpa using hi), Vector.getElem_toList]
  exact getElem?_bytesBe32 h[i] hj

/-- Settles O53: the last block is 56 bytes and then the length suffix. -/
theorem lengthSuffixIsBigEndianInTheLastBlock : Obligations.LengthSuffixIsBigEndianInTheLastBlock := by
  unfold Obligations.LengthSuffixIsBigEndianInTheLastBlock
  intro pending bits _
  obtain ⟨front, hfront, hlast⟩ := getLast?_finalBlocks pending bits
  refine ⟨_, hlast, fun j hj => ?_⟩
  rw [getElem_blockOfBytes (by simp [hfront]), List.getElem_append_right (by omega), getElem_bytesBe64, hfront,
    Nat.add_sub_cancel_left]

end

-- The statements of 30_encoding.md: the command words, and which operands a command reads.
section

namespace Sys2Proof

/-! ### What a command word says, whatever its operands -/

/-- The command of the same word with the given SRC, DST and LEN delivered, of which it takes those it reads (R58). -/
def Instr.withOperands (i : Instr) (src dst : Addr) (len : U64) : Instr :=
  match i with
  | .init c => .init c
  | .append c _ _ => .append c src len
  | .finish c _ => .finish c dst
  | .digest _ _ => .digest src dst
  | .selfDigest _ => .selfDigest src

/-- An instruction's word is that instruction's with any operands: they play no part in which command it is (R59). -/
theorem decode_encodeWord (i : Instr) (src dst : Addr) (len : U64) :
    decode ⟨encodeWord i, src, dst, len⟩ = .legal (i.withOperands src dst len) := by
  rw [encodeWord_eq_commandWord]
  cases i <;> simp [decode, Instr.opcode, Instr.context, Instr.withOperands]

/-- Decoding reads, besides the word, only the operands that its OP uses (R58, R61). -/
theorem decode_congr {x y : Command} (hcw : x.cw = y.cw)
    (hsrc : opField x.cw = 2 ∨ opField x.cw = 4 ∨ opField x.cw = 5 → x.src = y.src)
    (hdst : opField x.cw = 3 ∨ opField x.cw = 4 → x.dst = y.dst)
    (hlen : opField x.cw = 2 → x.len = y.len) : decode x = decode y := by
  unfold decode
  rw [← hcw]
  split
  · rfl
  · split
    next => rfl
    next hop =>
      have hop : opField x.cw = 2 := BitVec.eq_of_toNat_eq hop
      rw [hsrc (.inl hop), hlen hop]
    next hop =>
      have hop : opField x.cw = 3 := BitVec.eq_of_toNat_eq hop
      rw [hdst (.inl hop)]
    next hop =>
      have hop : opField x.cw = 4 := BitVec.eq_of_toNat_eq hop
      rw [hsrc (.inr (.inl hop)), hdst (.inr hop)]
    next hop =>
      have hop : opField x.cw = 5 := BitVec.eq_of_toNat_eq hop
      rw [hsrc (.inr (.inr hop))]
    next => rfl

end Sys2Proof

namespace Sys2Proof.Machine

/-- A command is performed by its word, which fault entry records, and by what it decodes to (R59, R61). -/
theorem performCommand_congr {x y : Command} (hcw : x.cw = y.cw) (hdecode : decode x = decode y) (s : State) :
    performCommand x s = performCommand y s := by
  simp only [performCommand, hcw, hdecode]

/-- A command of the machine that stands first in the inbox is performed (R28, R50). -/
theorem step_issued_command {s : State} {c : Command} (rest : List Transaction) (h : c.fits s.addrWidth = true) :
    step { s with inbox := .command c :: rest } = performCommand c { s with inbox := rest } :=
  step_of_inbox (s := { s with inbox := .command c :: rest }) rfl h

end Sys2Proof.Machine

open Sys2Proof Sys2Proof.Machine

/-- Settles O3: the fields of an encoded word are the instruction's own, and the ignored operands are 0. -/
theorem decodeOfEncodeIsIdentity : Obligations.DecodeOfEncodeIsIdentity := by
  unfold Obligations.DecodeOfEncodeIsIdentity
  exact fun i => ⟨decode_encode i, fun _ => encode_fits⟩

/-- Settles O4: a legal word has no bit outside its OP and CTX fields, and decoding determines both. -/
theorem legalWordIsReencodedExactly : Obligations.LegalWordIsReencodedExactly := by
  unfold Obligations.LegalWordIsReencodedExactly
  exact fun _ _ => encodeWord_of_decode

/-- Settles O5: both commands exist, decode alike and have the same word, which is all that performing one reads. -/
theorem ignoredOperandsHaveNoEffect : Obligations.IgnoredOperandsHaveNoEffect := by
  unfold Obligations.IgnoredOperandsHaveNoEffect
  intro s x y rest hx hy hcw hsrc hdst hlen
  calc step { s with inbox := .command x :: rest }
      = performCommand x { s with inbox := rest } := step_issued_command rest hx
    _ = performCommand y { s with inbox := rest } := performCommand_congr hcw (decode_congr hcw hsrc hdst hlen) _
    _ = step { s with inbox := .command y :: rest } := (step_issued_command rest hy).symm

/-- Settles O1: each formula is the encoder's word for its command, and each example a value of a formula. -/
theorem legalWordsDecodeByFormula : Obligations.LegalWordsDecodeByFormula := by
  unfold Obligations.LegalWordsDecodeByFormula
  refine ⟨fun c src dst len => ?_, decode_encode (.init 0), decode_encode (.append 1 0x1000 1),
    decode_encode (.finish 15 0x200)⟩
  exact ⟨decode_encodeWord (.init c) src dst len, decode_encodeWord (.append c 0 0) src dst len,
    decode_encodeWord (.finish c 0) src dst len, decode_encodeWord (.digest 0 0) src dst len,
    decode_encodeWord (.selfDigest 0) src dst len⟩

end

-- The statements of 40_constants.md: the round constants and the initial hash words, as roots of the first primes.
section

namespace Sys2Proof.Machine

/-! ### The first primes -/

/-- The n-th number with a property is the n-th one listed among the numbers below any bound that lists so many. -/
theorem nth_eq_of_getElem?_filter_range {p : Nat → Prop} [DecidablePred p] {n i x : Nat}
    (h : ((List.range n).filter p)[i]? = some x) : Nat.nth p i = x := by
  induction n with
  | zero => simp at h
  | succ n ih =>
    rw [List.range_succ, List.filter_append, List.getElem?_append] at h
    split at h
    case isTrue => exact ih h
    case isFalse hlen =>
      have hcount : Nat.count p n = ((List.range n).filter p).length := List.countP_eq_length_filter
      by_cases hn : p n
      · obtain ⟨hi, hx⟩ : i - ((List.range n).filter p).length = 0 ∧ n = x := by
          simpa [hn, List.getElem?_singleton] using h
        obtain rfl : i = Nat.count p n := by omega
        exact hx ▸ Nat.nth_count hn
      · simp [hn] at h

/-- The primes p_0..p_63 of R67. -/
def firstPrimes : List Nat :=
  [2, 3, 5, 7, 11, 13, 17, 19, 23, 29, 31, 37, 41, 43, 47, 53, 59, 61, 67, 71, 73, 79, 83, 89, 97, 101, 103, 107, 109,
   113, 127, 131, 137, 139, 149, 151, 157, 163, 167, 173, 179, 181, 191, 193, 197, 199, 211, 223, 227, 229, 233, 239,
   241, 251, 257, 263, 269, 271, 277, 281, 283, 293, 307, 311]

theorem filter_prime_range : (List.range 312).filter Nat.Prime = firstPrimes := by decide +kernel

theorem nth_prime_of_getElem?_firstPrimes {t q : Nat} (h : firstPrimes[t]? = some q) : Nat.nth Nat.Prime t = q :=
  nth_eq_of_getElem?_filter_range (filter_prime_range ▸ h)

/-- `firstPrimes` gives the (t+1)-th prime at t, and none is missing. -/
theorem getElem?_firstPrimes {t : Nat} (ht : t < 64) : firstPrimes[t]? = some (Nat.nth Nat.Prime t) := by
  have h : firstPrimes[t]? = some (firstPrimes[t]'ht) := List.getElem?_eq_getElem ht
  rw [nth_prime_of_getElem?_firstPrimes h, h]

/-! ### The tables are computed from the primes -/

/-- The first 32 bits of the fractional part of the cube root, by the integer formula of R67. -/
def cubeRootFraction (q : Nat) : Word := BitVec.ofNat 32 (Nat.nthRoot 3 (q * 2 ^ 96) % 2 ^ 32)

/-- The first 32 bits of the fractional part of the square root, by the integer formula of R69. -/
def squareRootFraction (q : Nat) : Word := BitVec.ofNat 32 (Nat.sqrt (q * 2 ^ 64) % 2 ^ 32)

theorem roundConstants_eq_map : roundConstants = firstPrimes.map cubeRootFraction := by decide +kernel

theorem initialHash_toList : initialHash.toList = (firstPrimes.take 8).map squareRootFraction := by decide +kernel

end Sys2Proof.Machine

open Sys2Proof Sys2Proof.Machine

/-- Settles O44: r is the library's integer cube root, and the table lists its low 32 bits for each of the first 64
primes. -/
theorem roundConstantsAreCubeRootFractions : Obligations.RoundConstantsAreCubeRootFractions := by
  unfold Obligations.RoundConstantsAreCubeRootFractions
  refine ⟨rfl, nth_prime_of_getElem?_firstPrimes rfl, nth_prime_of_getElem?_firstPrimes rfl, fun t ht =>
    ⟨Nat.nthRoot 3 (Nat.nth Nat.Prime t * 2 ^ 96), Nat.pow_nthRoot_le (.inl (by decide)),
      Nat.lt_pow_nthRoot_add_one (by decide) _, ?_⟩⟩
  rw [roundConstants_eq_map, List.getElem?_map, getElem?_firstPrimes ht, Option.map_some, cubeRootFraction]

/-- Settles O45: the table lists the low 32 bits of the integer square root for each of the first 8 primes. -/
theorem initialHashIsSquareRootFractions : Obligations.InitialHashIsSquareRootFractions := by
  unfold Obligations.InitialHashIsSquareRootFractions
  intro i hi
  have hentry : initialHash.toList[i]? = some (squareRootFraction (Nat.nth Nat.Prime i)) := by
    rw [initialHash_toList, List.getElem?_map, List.getElem?_take_of_lt hi, getElem?_firstPrimes (by omega),
      Option.map_some]
  simpa [hi, squareRootFraction] using hentry

end

-- The statements of 41_context_commands.md: INIT, APPEND and FINISH, the message a slot holds, and what never shows.
section

namespace Sys2Proof.Machine

/-! ### Replacing a slot -/

theorem setSlot_setSlot (s : State) (k : Nat) (x y : Slot) : (s.setSlot k x).setSlot k y = s.setSlot k y := by
  simp only [State.setSlot, List.set_set]

theorem setSlot_of_le {s : State} {k : Nat} (h : s.slots.length ≤ k) (x : Slot) : s.setSlot k x = s := by
  simp only [State.setSlot, List.set_eq_of_length_le h]

theorem setSlot_self {s : State} {k : Nat} {x : Slot} (h : s.slots[k]? = some x) : s.setSlot k x = s := by
  obtain ⟨hk, rfl⟩ := List.getElem?_eq_some_iff.mp h
  simp only [State.setSlot, List.set_getElem_self]

theorem getElem?_setSlot {s : State} {k : Nat} (h : k < s.slots.length) (x : Slot) :
    (s.setSlot k x).slots[k]? = some x :=
  List.getElem?_set_self h

@[simp] theorem setSlot_slots_length (s : State) (k : Nat) (x : Slot) :
    (s.setSlot k x).slots.length = s.slots.length := List.length_set

/-! ### The three context commands on a slot that passes their checks -/

/-- APPEND's checks on its source range: none when it names no byte (R73, R104, R105). -/
abbrev State.Readable (s : State) (src : Addr) (len : U64) : Prop :=
  len ≠ 0 → s.InSpace src len.toNat ∧ s.Admits .read src len.toNat

theorem commandEffect_init {s : State} {c : BitVec 4} (hc : c.toNat < s.slots.length) :
    commandEffect (.init c) s = s.setSlot c.toNat Slot.initial :=
  updateSlot_eq_set (List.getElem?_eq_getElem hc) _

theorem commandEffect_append {s : State} {c : BitVec 4} {sl : Slot} (hsl : s.slots[c.toNat]? = some sl) (src : Addr)
    (len : U64) :
    commandEffect (.append c src len) s = s.setSlot c.toNat (sl.absorb (readBytes s.mem src.toNat len.toNat)) :=
  updateSlot_eq_set hsl _

theorem exec_init {s : State} {c : BitVec 4} (hr : s.Running) (hc : c.toNat < s.slots.length) :
    exec (.init c) s = .next (s.setSlot c.toNat Slot.initial) := by
  have hn : commandFault (.init c) s = none := (contextFault_eq_none c s).mpr hc
  rw [exec_effect hr hn, commandEffect_init hc]

theorem exec_append {s : State} {c : BitVec 4} {src : Addr} {len : U64} {sl : Slot} (hr : s.Running)
    (hsl : s.slots[c.toNat]? = some sl) (hactive : sl.phase = .active)
    (hlen : sl.tbl.toNat + 8 * len.toNat < 2 ^ 64) (hsrc : s.Readable src len) :
    exec (.append c src len) s =
      .next (s.setSlot c.toNat (sl.absorb (readBytes s.mem src.toNat len.toNat))) := by
  have hn : commandFault (.append c src len) s = none :=
    (appendFault_eq_none c src len s).mpr ⟨sl, hsl, hactive, hlen, or_iff_not_imp_left.mpr hsrc⟩
  rw [exec_effect hr hn, commandEffect_append hsl]

/-- Slot `c` CONSUMED and holding no value, and the digest at DST (R75, R77). -/
def State.finished (s : State) (c : BitVec 4) (dst : Addr) (digest : List Byte) : State :=
  { s with
    slots := s.slots.set c.toNat (Slot.empty .consumed s.freeCount)
    mem := writeBytes s.mem dst.toNat digest
    freeCount := s.freeCount + 1 }

@[simp] theorem finished_mem (s : State) (c : BitVec 4) (dst : Addr) (digest : List Byte) :
    (s.finished c dst digest).mem = writeBytes s.mem dst.toNat digest := rfl

theorem commandEffect_finish_eq_finished {s : State} {c : BitVec 4} {sl : Slot} (hsl : s.slots[c.toNat]? = some sl)
    (dst : Addr) : commandEffect (.finish c dst) s = s.finished c dst (digestBytes sl.finalHash) := by
  rw [commandEffect_finish hsl, State.finished]

theorem exec_finish {s : State} {c : BitVec 4} {dst : Addr} {sl : Slot} (hr : s.Running)
    (hsl : s.slots[c.toNat]? = some sl) (hactive : sl.phase = .active) (hspace : s.InSpace dst 32)
    (hadmits : s.Admits .write dst 32) :
    exec (.finish c dst) s = .next (s.finished c dst (digestBytes sl.finalHash)) := by
  have hn : commandFault (.finish c dst) s = none :=
    (finishFault_eq_none c dst s).mpr ⟨sl, hsl, hactive, hspace, hadmits⟩
  rw [exec_effect hr hn, commandEffect_finish_eq_finished hsl]

/-! ### What absorbing does to a slot -/

theorem absorbByte_tbl (sl : Slot) (b : Byte) : (sl.absorbByte b).tbl = sl.tbl := by
  simp only [Slot.absorbByte]
  split <;> rfl

/-- The byte loop leaves the bit counter alone, which APPEND advances after it (R73). -/
theorem foldl_absorbByte_tbl (bs : List Byte) : ∀ sl : Slot, (bs.foldl Slot.absorbByte sl).tbl = sl.tbl := by
  induction bs with
  | nil => exact fun _ => rfl
  | cons b bs ih => exact fun sl => (ih _).trans (absorbByte_tbl sl b)

theorem absorb_eq (sl : Slot) (bs : List Byte) :
    sl.absorb bs =
      { bs.foldl Slot.absorbByte sl with tbl := sl.tbl + BitVec.ofNat 64 (8 * bs.length) } := by
  simp only [Slot.absorb, foldl_absorbByte_tbl]

@[simp] theorem absorb_nil (sl : Slot) : sl.absorb [] = sl := by
  simp [absorb_eq]

/-- `8·LEN` in the 64 bits of tbl (R73). -/
theorem ofNat_bits_readBytes (m : Memory) (a : Nat) (len : U64) :
    BitVec.ofNat 64 (8 * (readBytes m a len.toNat).length) = 8 * len := by
  rw [readBytes_length, BitVec.ofNat_mul, BitVec.ofNat_toNat, BitVec.setWidth_eq]
  rfl

/-! ### Every ACTIVE slot holds a message -/

/-- The slot an effect rewrites holds the empty message, or is CONSUMED, or holds the message it held and the bytes it
absorbed (R22). -/
theorem commandEffect_slotsHoldMessages {i : Instr} {s : State} (h : s.SlotsHoldMessages)
    (hn : commandFault i s = none) : (commandEffect i s).SlotsHoldMessages := by
  unfold State.SlotsHoldMessages
  obtain heq | ⟨c, old, new, hold, heq, hnew⟩ := commandEffect_slots i s hn <;> rw [heq]
  · exact h
  · intro sl hsl hactive
    obtain hsl | rfl := List.mem_or_eq_of_mem_set hsl
    · exact h sl hsl hactive
    · obtain rfl | ⟨hconsumed, -⟩ | ⟨hold_phase, bs, hlen, rfl⟩ := hnew
      · exact ⟨[], initial_holds⟩
      · cases hactive.symm.trans hconsumed
      · obtain ⟨m, hm⟩ := h old (List.mem_of_getElem? hold) hold_phase
        exact ⟨m ++ bs, holds_absorb hm bs hlen⟩

/-- RESET leaves no slot ACTIVE (R116). -/
theorem resetEngine_slotsHoldMessages (s : State) : (resetEngine s).SlotsHoldMessages := by
  intro sl hsl hactive
  obtain ⟨n, -, rfl⟩ := List.mem_mapIdx.mp hsl
  cases hactive

theorem performCommand_slotsHoldMessages {c : Command} {s t : State} (h : s.SlotsHoldMessages)
    (ht : performCommand c s = .next t) : t.SlotsHoldMessages := by
  obtain ⟨-, rfl⟩ | ⟨-, f, -, cw, rfl⟩ | ⟨-, i, -, hn, rfl⟩ := performCommand_cases ht
  · exact h
  · exact h
  · exact commandEffect_slotsHoldMessages h hn

theorem transact_slotsHoldMessages {x : Transaction} {s t : State} (h : s.SlotsHoldMessages)
    (ht : transact x s = .next t) : t.SlotsHoldMessages := by
  cases x with
  | command c => exact performCommand_slotsHoldMessages h ht
  | reset => cases ht; exact resetEngine_slotsHoldMessages s
  | readStatus => cases ht; exact h
  | hostRead a => cases ht; exact h
  | hostWrite a b => cases ht; exact h

theorem step_slotsHoldMessages {s t : State} (h : s.SlotsHoldMessages) (ht : step s = .next t) :
    t.SlotsHoldMessages := by
  obtain ⟨-, rfl⟩ | ⟨x, rest, -, -, hx⟩ := step_next ht
  · exact h
  · have htaken : State.SlotsHoldMessages { s with inbox := rest } := h
    exact transact_slotsHoldMessages htaken hx

/-! ### FINISH's blocks and its digest -/

theorem finalBlocks_of_le {pending : List Byte} (bits : U64) (h : pending.length ≤ 55) :
    finalBlocks pending bits =
      [blockOfBytes (pending ++ [0x80] ++ zeroBytes (55 - pending.length) ++ bytesBe64 bits)] := by
  have hlen : (pending ++ [0x80]).length = pending.length + 1 := List.length_append
  simp only [finalBlocks, hlen]
  rw [if_neg (by omega), show 56 - (pending.length + 1) = 55 - pending.length by omega]

theorem finalBlocks_of_gt {pending : List Byte} (bits : U64) (h : 55 < pending.length) :
    finalBlocks pending bits =
      [blockOfBytes (pending ++ [0x80] ++ zeroBytes (63 - pending.length)),
        blockOfBytes (zeroBytes 56 ++ bytesBe64 bits)] := by
  have hlen : (pending ++ [0x80]).length = pending.length + 1 := List.length_append
  simp only [finalBlocks, hlen]
  rw [if_pos (by omega), show 64 - (pending.length + 1) = 63 - pending.length by omega]

theorem finalHash_eq (sl : Slot) : sl.finalHash = compressAll sl.h (finalBlocks sl.pending sl.tbl) := rfl

theorem finalHash_of_le {sl : Slot} (h : sl.blen ≤ 55) :
    sl.finalHash =
      compress sl.h (blockOfBytes (sl.pending ++ [0x80] ++ zeroBytes (55 - sl.blen) ++ bytesBe64 sl.tbl)) := by
  have hp := pending_length (sl := sl) (by omega)
  rw [finalHash_eq, finalBlocks_of_le sl.tbl (by omega), compressAll_cons, compressAll_nil, hp]

theorem finalHash_of_gt {sl : Slot} (h : 55 < sl.blen) (hle : sl.blen ≤ 63) :
    sl.finalHash =
      compress (compress sl.h (blockOfBytes (sl.pending ++ [0x80] ++ zeroBytes (63 - sl.blen))))
        (blockOfBytes (zeroBytes 56 ++ bytesBe64 sl.tbl)) := by
  have hp := pending_length (sl := sl) (by omega)
  rw [finalHash_eq, finalBlocks_of_gt sl.tbl (by omega), compressAll_cons, compressAll_cons, compressAll_nil, hp]

/-- A digest written to host memory stands there word by word, each most significant byte first (R41). -/
theorem read_writeBytes_digestBytes {m : Memory} (hm : m.wf) (a : Nat) (h : Hash) {i j : Nat} (hi : i < 8)
    (hj : j < 4) : (writeBytes m a (digestBytes h)).read (a + (4 * i + j)) = (h[i]).extractLsb' (24 - 8 * j) 8 := by
  obtain ⟨hlength, hbyte⟩ := digestIsBigEndianByWord h
  have hlt : 4 * i + j < (digestBytes h).length := by omega
  rw [read_writeBytes_inside _ m a _ hm hlt]
  exact Option.some.inj ((List.getElem?_eq_getElem hlt).symm.trans (hbyte i j hi hj))

theorem readBytes_writeBytes_digestBytes {m : Memory} (hm : m.wf) (a : Nat) (h : Hash) :
    readBytes (writeBytes m a (digestBytes h)) a 32 = digestBytes h := by
  have hback := readBytes_writeBytes m hm a (digestBytes h)
  rwa [digestBytes_length] at hback

theorem read_writeBytes_digestBytes_outside (m : Memory) {dst : Addr} {a : Nat} (h : Hash) (ha : Outside dst 32 a) :
    (writeBytes m dst.toNat (digestBytes h)).read a = m.read a :=
  read_writeBytes_outside _ m dst.toNat a (by rwa [digestBytes_length])

/-! ### Runs of issued commands -/

theorem issue_append (xs ys : List Instr) : issue (xs ++ ys) = issue xs ++ issue ys := List.map_append

theorem run_of_step {s t : State} (h : step s = .next t) (k : Nat) :
    Host.Core.run core (k + 1) s = Host.Core.run core k t := by
  have hcore : core.step s = .next t := h
  simp only [Host.Core.run, hcore]

/-- The first of the commands issued is performed, and the run goes on with those behind it. -/
theorem run_of_exec {s t : State} {i : Instr} {is : List Instr} {rest : List Transaction}
    (hinbox : s.inbox = issue (i :: is) ++ rest) (hi : i.wellFormed s.addrWidth = true)
    (ht : exec i { s with inbox := issue is ++ rest } = .next t) (k : Nat) :
    Host.Core.run core (k + 1) s = Host.Core.run core k t :=
  run_of_step ((step_of_command hinbox (encode_fits hi) (decode_encode i)).trans ht) k

/-! ### A message in pieces -/

/-- APPENDs to slot `c` of the given pieces of host memory, in order (R79). -/
def appendPieces (c : BitVec 4) (pieces : List (Addr × U64)) : List Instr :=
  pieces.map fun p => .append c p.1 p.2

/-- The bytes of the pieces, in order: the message they make up. -/
def pieceBytes (m : Memory) (pieces : List (Addr × U64)) : List Byte :=
  pieces.flatMap fun p => readBytes m p.1.toNat p.2.toNat

/-- How many bytes the pieces have. -/
def pieceLength (pieces : List (Addr × U64)) : Nat := (pieces.map fun p => p.2.toNat).sum

/-- Every piece stands at an address of the machine, where the engine may read its bytes. -/
abbrev State.ReadablePieces (s : State) (pieces : List (Addr × U64)) : Prop :=
  ∀ p ∈ pieces, addrFits s.addrWidth p.1 = true ∧ s.Readable p.1 p.2

/-- APPENDs of the pieces in order are one absorption of all their bytes, since absorbing in turn is absorbing the
concatenation (R74). -/
theorem run_appendPieces {c : BitVec 4} {rest : List Transaction} (k : Nat) (pieces : List (Addr × U64)) :
    ∀ {s : State} {sl : Slot} {m : List Byte}, s.Running → s.slots[c.toNat]? = some sl → sl.Holds m →
      8 * (m.length + pieceLength pieces) < 2 ^ 64 → s.ReadablePieces pieces →
      s.inbox = issue (appendPieces c pieces) ++ rest →
      Host.Core.run core (pieces.length + k) s =
        Host.Core.run core k
          { s.setSlot c.toNat (sl.absorb (pieceBytes s.mem pieces)) with inbox := rest } := by
  induction pieces with
  | nil =>
    intro s sl m _ hsl _ _ _ hinbox
    have hinbox : s.inbox = rest := hinbox
    have hnothing : pieceBytes s.mem [] = [] := rfl
    rw [hnothing, absorb_nil, setSlot_self hsl, ← hinbox, List.length_nil, Nat.zero_add]
  | cons p pieces ih =>
    intro s sl m hr hsl hm hlen hpieces hinbox
    obtain ⟨src, len⟩ := p
    obtain ⟨⟨hfits, hread⟩, hpieces⟩ := List.forall_mem_cons.mp hpieces
    have hsum : pieceLength ((src, len) :: pieces) = len.toNat + pieceLength pieces := List.sum_cons
    have hlen_src : sl.tbl.toNat + 8 * len.toNat < 2 ^ 64 := by have := hm.tbl_eq; omega
    set bytes := readBytes s.mem src.toNat len.toNat
    have hbytes_length : bytes.length = len.toNat := readBytes_length ..
    set u : State := { s with inbox := issue (appendPieces c pieces) ++ rest }
    have hexec : exec (.append c src len) u = .next (u.setSlot c.toNat (sl.absorb bytes)) :=
      exec_append hr hsl hm.phase_active hlen_src hread
    have hslot : (u.setSlot c.toNat (sl.absorb bytes)).slots[c.toNat]? = some (sl.absorb bytes) :=
      getElem?_setSlot (List.getElem?_eq_some_iff.mp hsl).1 _
    have hholds := holds_absorb hm bytes (by omega)
    have hfewer : 8 * ((m ++ bytes).length + pieceLength pieces) < 2 ^ 64 := by rw [List.length_append]; omega
    have hrun : (u.setSlot c.toNat (sl.absorb bytes)).Running := hr
    rw [List.length_cons, Nat.add_right_comm, run_of_exec hinbox hfits hexec,
      ih hrun hslot hholds hfewer hpieces rfl, setSlot_setSlot, absorb_append]
    rfl

/-- INIT and then APPENDs of the pieces in order: the slot has absorbed their bytes from its initial state, and holds
them. -/
theorem run_init_appendPieces {s : State} {c : BitVec 4} {pieces : List (Addr × U64)} {rest : List Transaction}
    (hr : s.Running) (hc : c.toNat < s.slots.length) (hlen : 8 * pieceLength pieces < 2 ^ 64)
    (hpieces : s.ReadablePieces pieces)
    (hinbox : s.inbox = issue (.init c :: appendPieces c pieces) ++ rest) (k : Nat) :
    Host.Core.run core (pieces.length + k + 1) s =
      Host.Core.run core k
        { s.setSlot c.toNat (Slot.initial.absorb (pieceBytes s.mem pieces)) with inbox := rest } := by
  set u : State := { s with inbox := issue (appendPieces c pieces) ++ rest }
  have hexec : exec (.init c) u = .next (u.setSlot c.toNat Slot.initial) := exec_init hr hc
  have hslot : (u.setSlot c.toNat Slot.initial).slots[c.toNat]? = some Slot.initial := getElem?_setSlot hc _
  have hrun : (u.setSlot c.toNat Slot.initial).Running := hr
  rw [run_of_exec hinbox rfl hexec,
    run_appendPieces k pieces hrun hslot initial_holds (by rwa [List.length_nil, Nat.zero_add]) hpieces rfl,
    setSlot_setSlot]
  rfl

theorem pieceBytes_length (m : Memory) (pieces : List (Addr × U64)) :
    (pieceBytes m pieces).length = pieceLength pieces := by
  simp only [pieceBytes, pieceLength, List.length_flatMap, readBytes_length]

/-- A slot that has absorbed the pieces from its initial state holds the message they make up (R22). -/
theorem holds_pieceBytes {m : Memory} {pieces : List (Addr × U64)} (hlen : 8 * pieceLength pieces < 2 ^ 64) :
    (Slot.initial.absorb (pieceBytes m pieces)).Holds (pieceBytes m pieces) := by
  have hbits : Slot.initial.tbl.toNat + 8 * (pieceBytes m pieces).length < 2 ^ 64 := by
    rw [pieceBytes_length, initial_holds.tbl_eq]
    simpa using hlen
  exact holds_absorb initial_holds _ hbits

/-! ### A range in consecutive pieces -/

/-- The consecutive pieces of the given lengths, the first at `src` (R74). -/
def chunkPieces (src : Addr) : List U64 → List (Addr × U64)
  | [] => []
  | len :: lens => (src, len) :: chunkPieces (src + len) lens

theorem chunks_eq_appendPieces (c : BitVec 4) (lens : List U64) : ∀ src,
    chunks c src lens = appendPieces c (chunkPieces src lens) := by
  induction lens with
  | nil => exact fun _ => rfl
  | cons len lens ih => exact fun src => congrArg (Instr.append c src len :: ·) (ih (src + len))

@[simp] theorem chunkPieces_length (lens : List U64) : ∀ src, (chunkPieces src lens).length = lens.length := by
  induction lens with
  | nil => exact fun _ => rfl
  | cons len lens ih => exact fun src => congrArg (· + 1) (ih (src + len))

@[simp] theorem pieceLength_chunkPieces (lens : List U64) : ∀ src,
    pieceLength (chunkPieces src lens) = (lens.map BitVec.toNat).sum := by
  induction lens with
  | nil => exact fun _ => rfl
  | cons len lens ih => exact fun src => congrArg (len.toNat + ·) (ih (src + len))

/-- A piece begins where the one before it ends, unless that is the top of the largest address space, where only pieces
of no bytes can follow. -/
theorem toNat_add_of_le {src : Addr} {len : U64} {n : Nat} (h : src.toNat + (len.toNat + n) ≤ 2 ^ 64) :
    n = 0 ∨ (src + len).toNat = src.toNat + len.toNat := by
  rw [BitVec.toNat_add]
  omega

/-- The consecutive pieces of a range hold its bytes. -/
theorem pieceBytes_chunkPieces (m : Memory) (lens : List U64) : ∀ src : Addr,
    src.toNat + (lens.map BitVec.toNat).sum ≤ 2 ^ 64 →
    pieceBytes m (chunkPieces src lens) = readBytes m src.toNat (lens.map BitVec.toNat).sum := by
  induction lens with
  | nil => exact fun _ _ => rfl
  | cons len lens ih =>
    intro src hspace
    rw [List.map_cons, List.sum_cons] at hspace ⊢
    have hsplit : pieceBytes m (chunkPieces src (len :: lens)) =
      readBytes m src.toNat len.toNat ++ pieceBytes m (chunkPieces (src + len) lens) := List.flatMap_cons
    rw [hsplit, readBytes_append, ih _ (by rw [BitVec.toNat_add]; omega)]
    obtain hnone | hnext := toNat_add_of_le hspace
    · rw [hnone]; rfl
    · rw [hnext]

/-- The engine may read each of the consecutive pieces of a range it may read. -/
theorem chunkPieces_readable {s : State} (hw : s.addrWidth ≤ 64) (lens : List U64) : ∀ src : Addr,
    s.InSpace src (lens.map BitVec.toNat).sum → s.Admits .read src (lens.map BitVec.toNat).sum →
    ∀ p ∈ chunkPieces src lens, s.Readable p.1 p.2 := by
  have htop : 2 ^ s.addrWidth ≤ 2 ^ 64 := Nat.pow_le_pow_right (by decide) hw
  induction lens with
  | nil => exact fun _ _ _ _ hp => by cases hp
  | cons len lens ih =>
    intro src hspace hadmits
    rw [List.map_cons, List.sum_cons] at hspace hadmits
    have hspace_src : s.InSpace src len.toNat := by omega
    have hadmits_src : s.Admits .read src len.toNat := fun i hi => hadmits i (by omega)
    refine List.forall_mem_cons.mpr ⟨fun _ => ⟨hspace_src, hadmits_src⟩, ih (src + len) ?_ fun i hi => ?_⟩
    · have := BitVec.toNat_add src len
      omega
    · obtain hnone | hnext := toNat_add_of_le (hspace.trans htop)
      · omega
      · rw [hnext, Nat.add_assoc]
        exact hadmits _ (by omega)

/-! ### What no observation can tell -/

theorem Slot.Alike.refl (x : Slot) : x.Alike x := ⟨rfl, fun _ => rfl, fun _ => rfl, fun _ => rfl, fun _ => rfl⟩

/-- A slot that is not ACTIVE shows its phase alone (R77, R117). -/
theorem Slot.Alike.of_not_active {x y : Slot} (hphase : x.phase = y.phase) (hx : x.phase ≠ .active) : x.Alike y :=
  ⟨hphase, fun h => absurd h hx, fun h => absurd h hx, fun h => absurd h hx, fun h => absurd h hx⟩

/-- Two ACTIVE slots alike stay so when both absorb the same bytes: the byte loop reads no buffer byte at or above
blen (R19). -/
theorem Slot.Alike.absorb {x y : Slot} (h : x.Alike y) (hactive : x.phase = .active) (hx : x.blen ≤ 63)
    (bs : List Byte) : (x.absorb bs).Alike (y.absorb bs) := by
  obtain ⟨hphase, hh, hblen, htbl, hpending⟩ := h
  have hblen := hblen hactive
  obtain ⟨xphase, -, xblen, xh, xpending⟩ := foldl_absorbByte bs x hx
  obtain ⟨yphase, -, yblen, yh, ypending⟩ := foldl_absorbByte bs y (hblen ▸ hx)
  rw [absorb_eq, absorb_eq]
  exact {
    phase_eq := by simp only [xphase, yphase, hphase]
    h_eq := fun _ => by simp only [xh, yh, hh hactive, hpending hactive]
    blen_eq := fun _ => by simp only [xblen, yblen, hblen]
    tbl_eq := fun _ => by simp only [htbl hactive]
    pending_eq := fun _ => by
      rw [hpending hactive] at xpending
      exact xpending.trans ypending.symm }

/-- FINISH's last hash state is computed from what two ACTIVE slots alike share (R75). -/
theorem Slot.Alike.finalHash_eq {x y : Slot} (h : x.Alike y) (hactive : x.phase = .active) :
    x.finalHash = y.finalHash := by
  have hpending : x.buf.toList.take x.blen = y.buf.toList.take y.blen := h.pending_eq hactive
  simp only [Slot.finalHash, h.h_eq hactive, h.tbl_eq hactive, hpending]

theorem State.Alike.getElem?_slots {s s' : State} (h : s.Alike s') {k : Nat} {x : Slot} (hx : s.slots[k]? = some x) :
    ∃ x', s'.slots[k]? = some x' ∧ x.Alike x' := by
  obtain ⟨hlength, hget⟩ := List.forall₂_iff_get.mp h.slots_alike
  obtain ⟨hk, rfl⟩ := List.getElem?_eq_some_iff.mp hx
  exact ⟨_, List.getElem?_eq_getElem (hlength ▸ hk), hget k hk (hlength ▸ hk)⟩

/-- The slot a CTX field names exists in both machines or in neither, and is alike in both. -/
theorem State.Alike.slot? {s s' : State} (h : s.Alike s') (c : BitVec 4) :
    (s.slot? c = none ∧ s'.slot? c = none) ∨
      ∃ x x', s.slot? c = some x ∧ s'.slot? c = some x' ∧ x.Alike x' := by
  cases hx : s.slot? c with
  | none =>
    have hle : s.slots.length ≤ c.toNat := List.getElem?_eq_none_iff.mp hx
    exact .inl ⟨rfl, List.getElem?_eq_none (h.slots_alike.length_eq ▸ hle)⟩
  | some x =>
    obtain ⟨x', hx', hxx⟩ := h.getElem?_slots hx
    exact .inr ⟨x, x', rfl, hx', hxx⟩

theorem State.Alike.halted_eq {s s' : State} (h : s.Alike s') : s.halted = s'.halted := halted_congr h.status_eq

theorem State.Alike.running {s s' : State} (h : s.Alike s') (hr : s.Running) : s'.Running :=
  h.halted_eq.symm.trans hr

/-! Updates that keep two machines alike. -/

theorem State.Alike.setSlot {s s' : State} (h : s.Alike s') {x x' : Slot} (hx : x.Alike x') (k : Nat) :
    (s.setSlot k x).Alike (s'.setSlot k x') := by
  obtain ⟨hlength, hget⟩ := List.forall₂_iff_get.mp h.slots_alike
  refine { h with slots_alike := List.forall₂_iff_get.mpr ⟨by simpa using hlength, fun i hi hi' => ?_⟩ }
  simp only [State.setSlot, List.get_eq_getElem, List.getElem_set]
  split
  · exact hx
  · exact hget i (by simpa using hi) (by simpa using hi')

theorem State.Alike.withMem {s s' : State} (h : s.Alike s') (m : Memory) : (s.withMem m).Alike (s'.withMem m) :=
  { h with mem_eq := rfl }

/-- The slot FINISH leaves is CONSUMED, whatever free values it draws (R77). -/
theorem State.Alike.finished {s s' : State} (h : s.Alike s') (c : BitVec 4) (dst : Addr) (digest : List Byte) :
    (s.finished c dst digest).Alike (s'.finished c dst digest) := by
  have hempty : (Slot.empty .consumed s.freeCount).Alike (Slot.empty .consumed s'.freeCount) :=
    .of_not_active rfl (by simp)
  exact { h.setSlot hempty c.toNat with mem_eq := by rw [finished_mem, finished_mem, h.mem_eq] }

theorem State.Alike.answer {s s' : State} (h : s.Alike s') (r : Reply) : (s.answer r).Alike (s'.answer r) :=
  { h with replies_eq := congrArg (· ++ [r]) h.replies_eq }

theorem State.Alike.raise {s s' : State} (h : s.Alike s') (cw : Word) (f : FaultReport) :
    (s.raise cw f).Alike (s'.raise cw f) :=
  { h with status_eq := rfl, fcmd_eq := rfl, faddr_eq := rfl }

theorem State.Alike.withInbox {s s' : State} (h : s.Alike s') (inbox : List Transaction) :
    State.Alike { s with inbox := inbox } { s' with inbox := inbox } :=
  { h with inbox_eq := rfl }

/-- RESET leaves every slot UNINIT, whatever free values it draws (R116). -/
theorem State.Alike.resetEngine {s s' : State} (h : s.Alike s') : (resetEngine s).Alike (resetEngine s') := by
  refine { h with status_eq := rfl, fcmd_eq := rfl, faddr_eq := rfl, slots_alike := ?_ }
  refine List.forall₂_iff_get.mpr ⟨by simpa using h.slots_alike.length_eq, fun i hi hi' => ?_⟩
  simp only [resetEngine_slots, List.get_eq_getElem, List.getElem_mapIdx]
  exact .of_not_active rfl (by simp)

/-! The checks of two machines alike. -/

theorem rangeFault_congr {s s' : State} (h : s.addrWidth = s'.addrWidth) (a : Addr) (n : Nat) :
    rangeFault a n s = rangeFault a n s' := by
  simp only [rangeFault, h]

theorem firstRefused_congr {s s' : State} (h : s.refused = s'.refused) (k : AccessKind) (n : Nat) :
    ∀ a, s.firstRefused k a n = s'.firstRefused k a n := by
  induction n with
  | zero => exact fun _ => rfl
  | succ n ih =>
    intro a
    have hadmits : s.admits k a = s'.admits k a := by simp only [State.admits, h]
    simp only [State.firstRefused, hadmits, ih]

theorem admitFault_congr {s s' : State} (h : s.refused = s'.refused) (k : AccessKind) (a : Addr) (n : Nat) :
    admitFault k a n s = admitFault k a n s' := by
  simp only [admitFault, firstRefused_congr h]

theorem State.Alike.activeSlotFault_eq {s s' : State} (h : s.Alike s') (c : BitVec 4)
    {rest rest' : Slot → Option FaultReport}
    (hrest : ∀ x x' : Slot, x.Alike x' → x.phase = .active → rest x = rest' x') :
    activeSlotFault c s rest = activeSlotFault c s' rest' := by
  obtain ⟨hs, hs'⟩ | ⟨x, x', hs, hs', hx⟩ := h.slot? c
  · simp only [activeSlotFault, hs, hs']
  · simp only [activeSlotFault, hs, hs', ← hx.phase_eq]
    cases hphase : x.phase with
    | uninit => rfl
    | consumed => rfl
    | active => exact hrest x x' hx hphase

/-- No check tells two machines alike apart: of a slot it reads the phase, and of an ACTIVE one tbl. -/
theorem State.Alike.commandFault_eq {s s' : State} (h : s.Alike s') (i : Instr) :
    commandFault i s = commandFault i s' := by
  have hrange := rangeFault_congr h.addrWidth_eq
  have hadmit := admitFault_congr h.refused_eq
  cases i with
  | init c =>
    obtain ⟨hs, hs'⟩ | ⟨x, x', hs, hs', -⟩ := h.slot? c <;> simp only [commandFault, contextFault, hs, hs']
  | append c src len =>
    refine h.activeSlotFault_eq c fun x x' hx hactive => ?_
    simp only [lengthFault, hx.tbl_eq hactive, hrange, hadmit]
  | finish c dst => exact h.activeSlotFault_eq c fun _ _ _ _ => by simp only [hrange, hadmit]
  | digest src dst => simp only [commandFault, digestFault, hrange, hadmit]
  | selfDigest src => simp only [commandFault, selfDigestFault, hrange, hadmit]

/-! The effects on two machines alike. -/

/-- A command that passes its checks has effects alike on two machines alike. That the pending bytes of an ACTIVE slot
fit its buffer is the invariant's. -/
theorem State.Alike.commandEffect {i : Instr} {s s' : State} (h : s.Alike s') (hinv : s.Inv)
    (hn : commandFault i s = none) : (commandEffect i s).Alike (commandEffect i s') := by
  cases i with
  | init c =>
    have hc := (contextFault_eq_none c s).mp hn
    rw [commandEffect_init hc, commandEffect_init (h.slots_alike.length_eq ▸ hc)]
    exact h.setSlot (.refl _) _
  | append c src len =>
    obtain ⟨x, hx, hactive, -⟩ := (appendFault_eq_none c src len s).mp hn
    obtain ⟨x', hx', hxx⟩ := h.getElem?_slots hx
    obtain ⟨hblen, -⟩ := hinv.active_slots x (List.mem_of_getElem? hx) hactive
    rw [commandEffect_append hx, commandEffect_append hx', ← h.mem_eq]
    exact h.setSlot (hxx.absorb hactive hblen _) _
  | finish c dst =>
    obtain ⟨x, hx, hactive, -⟩ := (finishFault_eq_none c dst s).mp hn
    obtain ⟨x', hx', hxx⟩ := h.getElem?_slots hx
    rw [commandEffect_finish_eq_finished hx, commandEffect_finish_eq_finished hx', hxx.finalHash_eq hactive]
    exact h.finished c dst _
  | digest src dst =>
    simp only [Machine.commandEffect, ← h.mem_eq]
    exact h.withMem _
  | selfDigest src =>
    simp only [Machine.commandEffect, ← h.mem_eq]
    exact h.withMem _

theorem State.Alike.exec {i : Instr} {s s' t : State} (h : s.Alike s') (hinv : s.Inv) (ht : exec i s = .next t) :
    ∃ t', Machine.exec i s' = .next t' ∧ t.Alike t' := by
  obtain ⟨hhalted, rfl⟩ | ⟨hr, f, hf, rfl⟩ | ⟨hr, hn, rfl⟩ := exec_next ht
  · exact ⟨s', exec_halted i (h.halted_eq ▸ hhalted), h⟩
  · exact ⟨_, exec_failing (h.running hr) (h.commandFault_eq i ▸ hf), h.raise _ f⟩
  · exact ⟨_, exec_effect (h.running hr) (h.commandFault_eq i ▸ hn), h.commandEffect hinv hn⟩

theorem State.Alike.performIllegal {cw : Word} {s s' t : State} (h : s.Alike s')
    (ht : performIllegal cw s = .next t) : ∃ t', Machine.performIllegal cw s' = .next t' ∧ t.Alike t' := by
  cases hhalted : s.halted with
  | true =>
    rw [performIllegal_halted cw hhalted] at ht
    cases ht
    exact ⟨s', performIllegal_halted cw (h.halted_eq ▸ hhalted), h⟩
  | false =>
    rw [performIllegal_running cw hhalted] at ht
    cases ht
    exact ⟨_, performIllegal_running cw (h.running hhalted), h.raise cw _⟩

theorem State.Alike.performCommand {c : Command} {s s' t : State} (h : s.Alike s') (hinv : s.Inv)
    (ht : performCommand c s = .next t) : ∃ t', Machine.performCommand c s' = .next t' ∧ t.Alike t' := by
  unfold Machine.performCommand at ht ⊢
  split at ht
  · exact h.exec hinv ht
  · exact h.performIllegal ht

theorem State.Alike.transact {x : Transaction} {s s' t : State} (h : s.Alike s') (hinv : s.Inv)
    (ht : transact x s = .next t) : ∃ t', Machine.transact x s' = .next t' ∧ t.Alike t' := by
  cases x with
  | command c => exact h.performCommand hinv ht
  | readStatus =>
    cases ht
    exact ⟨_, rfl, by
      simp only [readStatus, h.status_eq, h.fcmd_eq, h.faddr_eq]
      exact h.answer _⟩
  | reset => cases ht; exact ⟨_, rfl, h.resetEngine⟩
  | hostRead a =>
    cases ht
    exact ⟨_, rfl, by
      simp only [hostRead, h.mem_eq]
      exact h.answer _⟩
  | hostWrite a b =>
    cases ht
    exact ⟨_, rfl, by
      simp only [hostWrite, h.mem_eq]
      exact h.withMem _⟩

theorem State.Alike.step {s s' t : State} (h : s.Alike s') (hinv : s.Inv) (ht : step s = .next t) :
    ∃ t', Machine.step s' = .next t' ∧ t.Alike t' := by
  obtain ⟨hempty, rfl⟩ | ⟨x, rest, hinbox, hfits, hx⟩ := step_next ht
  · exact ⟨s', by simp only [Machine.step, nextTransaction, ← h.inbox_eq, hempty], h⟩
  · obtain ⟨t', ht', htt⟩ := (h.withInbox rest).transact (hinv.of_inbox_replies rest s.replies) hx
    exact ⟨t', (step_of_inbox (h.inbox_eq ▸ hinbox) (h.addrWidth_eq ▸ hfits)).trans ht', htt⟩

end Sys2Proof.Machine

open Sys2Proof Sys2Proof.Machine

/-- Settles O26: APPEND passes its checks, and absorbing the bytes at SRC extends the message held. -/
theorem appendExtendsTheHeldMessage : Obligations.AppendExtendsTheHeldMessage := by
  unfold Obligations.AppendExtendsTheHeldMessage
  intro s c src len sl m hr hsl hm hlen hsrc
  exact ⟨_, exec_append hr hsl hm.phase_active hlen hsrc, holds_absorb hm _ (by rwa [readBytes_length])⟩

/-- Settles O38: a slot a step leaves ACTIVE is as it was, was just initialised, or has absorbed bytes. -/
theorem stepKeepsEveryActiveSlotHoldingAMessage : Obligations.StepKeepsEveryActiveSlotHoldingAMessage := by
  unfold Obligations.StepKeepsEveryActiveSlotHoldingAMessage
  exact fun _ _ => step_slotsHoldMessages

/-- Settles O43: the checks of two machines alike agree, and the effects read of a slot only what makes it alike; that
an ACTIVE slot's pending bytes fit its buffer is the invariant's. -/
theorem valuelessFieldsAreNotObservable : Obligations.ValuelessFieldsAreNotObservable := by
  unfold Obligations.ValuelessFieldsAreNotObservable
  exact fun _ _ _ hinv _ halike ht => halike.step hinv ht

/-- Settles O28: after either sequence the slot has absorbed, from its initial state, all the bytes of the range. -/
theorem chunkingIsNotObservable : Obligations.ChunkingIsNotObservable := by
  unfold Obligations.ChunkingIsNotObservable
  intro s c src total lens rest hr hw hc htotal hbits hspace hadmits hfits hchunks
  have hwhole : s.ReadablePieces [(src, total)] := by simpa using ⟨hfits, fun _ => ⟨hspace, hadmits⟩⟩
  rw [htotal] at hbits hspace hadmits
  have hparts : s.ReadablePieces (chunkPieces src lens) := fun p hp =>
    ⟨hchunks (.append c p.1 p.2) (by rw [chunks_eq_appendPieces]; exact List.mem_map_of_mem hp),
      chunkPieces_readable hw lens src hspace hadmits p hp⟩
  have hbytes : pieceBytes s.mem (chunkPieces src lens) = pieceBytes s.mem [(src, total)] := by
    have htop : 2 ^ s.addrWidth ≤ 2 ^ 64 := Nat.pow_le_pow_right (by decide) hw
    rw [pieceBytes_chunkPieces s.mem lens src (hspace.trans htop), ← htotal]
    simp [pieceBytes]
  have hrun_parts := run_init_appendPieces (s := { s with inbox := issue (.init c :: chunks c src lens) ++ rest }) hr hc
    (by rwa [pieceLength_chunkPieces]) hparts (by rw [chunks_eq_appendPieces]) 0
  have hrun_whole := run_init_appendPieces (s := { s with inbox := issue [.init c, .append c src total] ++ rest }) hr hc
    (by simpa [pieceLength, htotal] using hbits) hwhole rfl 0
  rw [chunkPieces_length, hbytes] at hrun_parts
  exact ⟨_, hrun_parts, hrun_whole⟩

/-- Settles O29: the byte loop compresses the whole blocks of its stream, and FINISH's blocks follow those of the
message held. -/
theorem compressCallCounts : Obligations.CompressCallCounts := by
  unfold Obligations.CompressCallCounts
  refine ⟨fun sl bs hblen => ?_, fun sl hblen => ⟨finalHash_eq sl, ?_⟩, fun sl m hm => ?_⟩
  · obtain ⟨-, -, hblen', hh, -⟩ := foldl_absorbByte bs sl hblen
    refine ⟨hh, ?_, hblen'⟩
    rw [blocksOf_length, List.length_append, pending_length (by omega)]
  · rw [finalBlocks_length, pending_length (by omega)]
  · have hblen := hm.blen_eq
    refine ⟨by rw [finalHash_eq, hm.h_eq, compressAll_append], ?_⟩
    rw [List.length_append, blocksOf_length, finalBlocks_length, pending_length (by omega), hblen]
    split <;> omega

/-- Settles O30: the bytes written are the digest of the hash state that FINISH's one or two blocks leave. -/
theorem finishWritesThePaddedDigest : Obligations.FinishWritesThePaddedDigest := by
  unfold Obligations.FinishWritesThePaddedDigest
  intro s c dst sl hr hwf hsl hactive hblen hspace hadmits n suffix hfin
  have hfinal : sl.finalHash = hfin := by
    obtain hgt | hle := Nat.lt_or_ge 55 n
    · exact (finalHash_of_gt hgt hblen).trans (if_neg (Nat.not_le.mpr hgt)).symm
    · exact (finalHash_of_le hle).trans (if_pos hle).symm
  rw [← hfinal]
  refine ⟨_, exec_finish hr hsl hactive hspace hadmits, fun i j hi hj => ?_, fun a ha => ?_, ⟨_, rfl, rfl⟩, rfl, rfl,
    rfl, rfl, rfl, rfl, rfl, ?_⟩ <;> rw [finished_mem]
  · exact read_writeBytes_digestBytes hwf _ _ hi hj
  · exact read_writeBytes_digestBytes_outside _ _ ha
  · exact writeBytes_wf _ _ _ hwf

/-- Settles O31: FINISH writes the digest of its last hash state, which is SHA256 of the message held. -/
theorem finishWritesSha256OfTheHeldMessage : Obligations.FinishWritesSha256OfTheHeldMessage := by
  unfold Obligations.FinishWritesSha256OfTheHeldMessage
  intro s c dst sl m hr hwf hsl hm hspace hadmits
  refine ⟨_, exec_finish hr hsl hm.phase_active hspace hadmits, ?_⟩
  rw [finished_mem, readBytes_writeBytes_digestBytes hwf, finalHash_of_holds hm]

/-- Settles O32: after the APPENDs the slot holds the message of the pieces, and FINISH writes its SHA256. -/
theorem hashSequenceWritesSha256 : Obligations.HashSequenceWritesSha256 := by
  unfold Obligations.HashSequenceWritesSha256
  intro s c pieces dst rest hr hwf hc hpieces hlen hspace hadmits hinbox
  have hsplit : s.inbox = issue (.init c :: appendPieces c pieces) ++ (issue [.finish c dst] ++ rest) := by
    rw [hinbox, issue_append, List.append_assoc]
    rfl
  have hbits : 8 * pieceLength pieces < 2 ^ 64 := by
    have : pieceLength pieces < 2 ^ 61 := hlen
    omega
  set sl := Slot.initial.absorb (pieceBytes s.mem pieces)
  have hholds : sl.Holds (pieceBytes s.mem pieces) := holds_pieceBytes hbits
  set u : State := { s.setSlot c.toNat sl with inbox := rest }
  have hslot : u.slots[c.toNat]? = some sl := getElem?_setSlot hc sl
  have hexec : exec (.finish c dst) u = .next (u.finished c dst (digestBytes sl.finalHash)) :=
    exec_finish hr hslot hholds.phase_active hspace hadmits
  have hfits : (Instr.finish c dst).wellFormed s.addrWidth = true := decide_eq_true (by omega)
  have hrun : Host.Core.run core (pieces.length + 2) s = .next (u.finished c dst (digestBytes sl.finalHash)) := by
    rw [run_init_appendPieces hr hc hbits hpieces hsplit 1]
    exact run_of_exec (s := { u with inbox := issue [.finish c dst] ++ rest }) rfl hfits hexec 0
  have hwf : u.mem.wf := hwf
  refine ⟨_, hrun, ?_, fun a ha => ?_, hr, rfl⟩ <;> rw [finished_mem]
  · rw [readBytes_writeBytes_digestBytes hwf, finalHash_of_holds hholds]
    rfl
  · exact read_writeBytes_digestBytes_outside _ _ ha

/-- Settles O51: the zero fill brings the length to 56 modulo 64 and is less than 64, so it is the least that does. -/
theorem paddingIsLeastAndWhole : Obligations.PaddingIsLeastAndWhole := by
  unfold Obligations.PaddingIsLeastAndWhole
  intro m _
  exact ⟨⟨(119 - m.length % 64) % 64, rfl, by omega, fun j hj => by omega, by omega⟩, pad_length m⟩

/-- Settles O23: INIT's one check is that the slot exists, and H0 is the table of R69. -/
theorem initLoadsTheInitialState : Obligations.InitLoadsTheInitialState := by
  unfold Obligations.InitLoadsTheInitialState
  exact fun _ _ => exec_init

/-- Settles O24: INIT replaces the whole slot, so what it replaces, an initialised slot among others, makes no
difference; where there is no such slot there is nothing to rewrite, and INIT faults. -/
theorem initErasesTheSlotsHistory : Obligations.InitErasesTheSlotsHistory := by
  unfold Obligations.InitErasesTheSlotsHistory
  intro s c x hr
  change exec (.init c) (s.setSlot c.toNat x) = _ ∧ _
  obtain hc | hc := Nat.lt_or_ge c.toNat s.slots.length
  · have hrewritten : ∀ y, exec (.init c) (s.setSlot c.toNat y) = .next (s.setSlot c.toNat Slot.initial) := fun y => by
      have hrun : (s.setSlot c.toNat y).Running := hr
      rw [exec_init hrun (by simpa using hc), setSlot_setSlot]
    refine ⟨by rw [hrewritten, exec_init hr hc], fun t ht _ => ?_⟩
    rw [exec_init hr hc] at ht
    cases ht
    exact hrewritten _
  · refine ⟨by rw [setSlot_of_le hc], fun t ht hrun => ?_⟩
    have hfault : commandFault (.init c) s = some { cause := .badContext, faddr := 0 } := contextFault_of_ge hc
    rw [exec_failing hr hfault] at ht
    cases ht
    simp [State.Running] at hrun

/-- Settles O25: the loop of the statement is the model's, turn by turn, and leaves tbl to be advanced after it. -/
theorem appendRunsTheByteLoop : Obligations.AppendRunsTheByteLoop := by
  unfold Obligations.AppendRunsTheByteLoop
  intro s c src len sl hr hsl hactive hlen hsrc
  rw [exec_append hr hsl hactive hlen hsrc, absorb_eq, ofNat_bits_readBytes]
  rfl

/-- Settles O27: with LEN = 0 no check on a range or on the counter can fail, and absorbing nothing changes nothing. -/
theorem appendOfNothingIsNoOp : Obligations.AppendOfNothingIsNoOp := by
  unfold Obligations.AppendOfNothingIsNoOp
  intro s c src sl hr hsl hactive
  have hlen : sl.tbl.toNat + 8 * (0 : U64).toNat < 2 ^ 64 := by simpa using sl.tbl.isLt
  have hnothing : readBytes s.mem src.toNat (0 : U64).toNat = [] := rfl
  rw [exec_append hr hsl hactive hlen fun h => absurd rfl h, hnothing, absorb_nil, setSlot_self hsl]

end

-- The statements of 42_compression.md: the bit functions, the message schedule and the rounds of COMPRESS.
section

namespace Sys2Proof.Machine

/-! ### The bit functions -/

theorem getLsbD_rotr (x : Word) {n i : Nat} (hn : n ≤ 32) (hi : i < 32) :
    (rotr x n).getLsbD i = x.getLsbD ((i + n) % 32) := by
  rw [rotr, BitVec.getLsbD_or, BitVec.getLsbD_ushiftRight, BitVec.getLsbD_shiftLeft]
  obtain hlow | hwrap := Nat.lt_or_ge (i + n) 32
  · -- the bit comes from the right shift; the left shift holds zero there
    have hleft : i < 32 - n := by omega
    simp [hleft, Nat.mod_eq_of_lt hlow, Nat.add_comm n i]
  · -- the bit has wrapped around; the right shift has run out of bits
    have hright : x.getLsbD (n + i) = false := BitVec.getLsbD_of_ge x _ (by omega)
    have hleft : ¬ i < 32 - n := by omega
    have hmod : (i + n) % 32 = i - (32 - n) := by omega
    simp [hright, hleft, hmod, hi]

theorem getLsbD_shr (x : Word) (n i : Nat) :
    (shr x n).getLsbD i = (decide (i + n < 32) && x.getLsbD (i + n)) := by
  rw [shr, BitVec.getLsbD_ushiftRight, Nat.add_comm n i]
  obtain hin | hout := Nat.lt_or_ge (i + n) 32
  · simp [hin]
  · simp [BitVec.getLsbD_of_ge x _ hout]

theorem getLsbD_ch (x y z : Word) {i : Nat} (hi : i < 32) :
    (ch x y z).getLsbD i = if x.getLsbD i then y.getLsbD i else z.getLsbD i := by
  simp only [ch, BitVec.getLsbD_xor, BitVec.getLsbD_and, BitVec.getLsbD_not, hi, decide_true, Bool.true_and]
  cases x.getLsbD i <;> simp

theorem getLsbD_maj (x y z : Word) (i : Nat) :
    (maj x y z).getLsbD i =
      decide (2 ≤ (x.getLsbD i).toNat + (y.getLsbD i).toNat + (z.getLsbD i).toNat) := by
  simp only [maj, BitVec.getLsbD_xor, BitVec.getLsbD_and]
  generalize x.getLsbD i = p, y.getLsbD i = q, z.getLsbD i = r
  revert p q r
  decide

/-! ### The words of a block -/

theorem wordsOfBytes_length : ∀ l : List Byte, (wordsOfBytes l).length = l.length / 4
  | [] | [_] | [_, _] | [_, _, _] => by simp [wordsOfBytes]
  | _ :: _ :: _ :: _ :: rest => by simp only [wordsOfBytes, List.length_cons, wordsOfBytes_length rest]; omega

/-- Word t is made of bytes 4t to 4t + 3 (R91). -/
theorem getElem?_wordsOfBytes : ∀ (l : List Byte) (t : Nat) (ht : 4 * t + 3 < l.length),
    (wordsOfBytes l)[t]? = some (be32 l[4 * t] l[4 * t + 1] l[4 * t + 2] l[4 * t + 3])
  | [], t, ht | [_], t, ht | [_, _], t, ht | [_, _, _], t, ht => by simp only [List.length] at ht; omega
  | _ :: _ :: _ :: _ :: _, 0, _ => rfl
  | _ :: _ :: _ :: _ :: rest, t + 1, ht =>
    getElem?_wordsOfBytes rest t (by simp only [List.length_cons] at ht; omega)

/-! ### The message schedule -/

@[simp] theorem extendSchedule_length (n : Nat) : ∀ w, (extendSchedule n w).length = w.length + n := by
  induction n with
  | zero => exact fun _ => rfl
  | succ n ih => intro w; rw [extendSchedule, ih]; simp; omega

/-- A schedule begun is kept. -/
theorem prefix_extendSchedule (n : Nat) : ∀ w, w <+: extendSchedule n w := by
  induction n with
  | zero => exact fun w => List.prefix_refl w
  | succ n ih => exact fun w => (List.prefix_append w _).trans (ih _)

/-- Each word after those given is computed from the words before it. -/
theorem getElem?_extendSchedule (n : Nat) : ∀ (w : List Word) {t : Nat}, w.length ≤ t → t < w.length + n →
    (extendSchedule n w)[t]? = some (nextScheduleWord ((extendSchedule n w).take t)) := by
  induction n with
  | zero => intro w t h1 h2; omega
  | succ n ih =>
    intro w t h1 h2
    rw [extendSchedule]
    obtain rfl | hlater := Nat.eq_or_lt_of_le h1
    · obtain ⟨rest, hrest⟩ := prefix_extendSchedule n (w ++ [nextScheduleWord w])
      simp [← hrest]
    · exact ih _ (by simpa using hlater) (by simp; omega)

theorem nextScheduleWord_take {w : List Word} {t : Nat} (h16 : 16 ≤ t) (ht : t ≤ w.length) :
    nextScheduleWord (w.take t) =
      smallSigma1 (w.getD (t - 2) 0) + w.getD (t - 7) 0 + smallSigma0 (w.getD (t - 15) 0) + w.getD (t - 16) 0 := by
  have hlen : (w.take t).length = t := by simp [ht]
  have hget : ∀ d, 0 < d → (w.take t).getD (t - d) 0 = w.getD (t - d) 0 := fun d hd => by
    rw [List.getD_eq_getElem?_getD, List.getElem?_take_of_lt (by omega), ← List.getD_eq_getElem?_getD]
  simp only [nextScheduleWord, hlen]
  rw [hget 2 (by decide), hget 7 (by decide), hget 15 (by decide), hget 16 (by decide)]

theorem wordsOfBytes_block_length (b : Block) : (wordsOfBytes b.toList).length = 16 := by
  rw [wordsOfBytes_length, Vector.length_toList]

@[simp] theorem schedule_length (b : Block) : (schedule b).length = 64 := by
  rw [schedule, extendSchedule_length, wordsOfBytes_block_length]

/-- `W[t]` of the schedule of a block (R91). -/
def scheduleWord (b : Block) (t : Nat) : Word := (schedule b).getD t 0

theorem scheduleWord_eq {b : Block} {t : Nat} {w : Word} (h : (schedule b)[t]? = some w) : scheduleWord b t = w := by
  rw [scheduleWord, List.getD_eq_getElem?_getD, h, Option.getD_some]

theorem schedule_eq_map (b : Block) : schedule b = (List.range 64).map (scheduleWord b) := by
  apply List.ext_getElem
  · simp
  · intro t ht _
    rw [List.getElem_map, List.getElem_range, scheduleWord_eq (List.getElem?_eq_getElem ht)]

/-- The schedule begins with the words of the block (R91). -/
theorem scheduleWord_of_lt (b : Block) {t : Nat} (ht : t < 16) :
    scheduleWord b t = be32 b[4 * t] b[4 * t + 1] b[4 * t + 2] b[4 * t + 3] := by
  apply scheduleWord_eq
  obtain ⟨rest, hrest⟩ := prefix_extendSchedule 48 (wordsOfBytes b.toList)
  rw [schedule, ← hrest, List.getElem?_append_left (by rwa [wordsOfBytes_block_length]),
    getElem?_wordsOfBytes b.toList t (by simp; omega)]
  simp only [Vector.getElem_toList]

/-- The schedule goes on by the recurrence (R91). -/
theorem scheduleWord_of_ge (b : Block) {t : Nat} (h16 : 16 ≤ t) (ht : t < 64) :
    scheduleWord b t = smallSigma1 (scheduleWord b (t - 2)) + scheduleWord b (t - 7) +
      smallSigma0 (scheduleWord b (t - 15)) + scheduleWord b (t - 16) := by
  have hnext : (schedule b)[t]? = some (nextScheduleWord ((schedule b).take t)) :=
    getElem?_extendSchedule 48 (wordsOfBytes b.toList) (by rwa [wordsOfBytes_block_length])
      (by rwa [wordsOfBytes_block_length])
  rw [scheduleWord_eq hnext, nextScheduleWord_take h16 (by rw [schedule_length]; omega)]
  rfl

/-! ### The rounds -/

/-- The working variables after the first `t` of the rounds. -/
def workingAfter (w : List Word) (v : Working) (t : Nat) : Working :=
  ((roundConstants.zip w).take t).foldl (fun v kw => compressionRound kw.1 kw.2 v) v

theorem workingAfter_zero (w : List Word) (v : Working) : workingAfter w v 0 = v := rfl

/-- Round t takes K[t] and W[t] (R92). -/
theorem workingAfter_succ {w : List Word} {t : Nat} {kt wt : Word} (hk : roundConstants[t]? = some kt)
    (hw : w[t]? = some wt) (v : Working) :
    workingAfter w v (t + 1) = compressionRound kt wt (workingAfter w v t) := by
  have hround : (roundConstants.zip w)[t]? = some (kt, wt) := List.getElem?_zip_eq_some.mpr ⟨hk, hw⟩
  simp [workingAfter, List.take_add_one, hround]

/-- There are 64 rounds, as many as there are round constants (R93). -/
theorem runRounds_eq_workingAfter (w : List Word) (v : Working) : runRounds w v = workingAfter w v 64 := by
  have hlen : roundConstants.length = 64 := rfl
  rw [runRounds, workingAfter, List.take_of_length_le (by rw [List.length_zip, hlen]; omega)]

end Sys2Proof.Machine

open Sys2Proof Sys2Proof.Machine

/-- Settles O49: the schedule keeps the block's 16 words and is extended word by word from the words before. -/
theorem scheduleFollowsItsRecurrence : Obligations.ScheduleFollowsItsRecurrence := by
  unfold Obligations.ScheduleFollowsItsRecurrence
  exact fun b => ⟨scheduleWord b, schedule_eq_map b, fun _ => scheduleWord_of_lt b, fun _ => scheduleWord_of_ge b⟩

/-- Settles O50: the values of the statement are those after the model's first t rounds. -/
theorem compressionRunsSixtyFourRounds : Obligations.CompressionRunsSixtyFourRounds := by
  unfold Obligations.CompressionRunsSixtyFourRounds
  intro h b
  refine ⟨workingAfter (schedule b) (workingOf h), workingAfter_zero _ _, fun t ht => ?_, ?_⟩
  · have hk : roundConstants[t]? = some (roundConstants[t]'ht) := List.getElem?_eq_getElem ht
    have hw : (schedule b)[t]? = some (scheduleWord b t) := by simp [schedule_eq_map, ht]
    exact ⟨_, _, hk, hw, workingAfter_succ hk hw _⟩
  · rw [compress, runRounds_eq_workingAfter, addWorking]

/-- Settles O46: a bit of a rotation comes from the one of its two shifts that reaches it. -/
theorem rotationAndShiftMoveBits : Obligations.RotationAndShiftMoveBits := by
  unfold Obligations.RotationAndShiftMoveBits
  exact fun x n i _ hn hi => ⟨getLsbD_rotr x (by omega) hi, getLsbD_shr x n i⟩

/-- Settles O47: both functions are bitwise operations, so each is decided by the values of three bits. -/
theorem chooseAndMajorityWorkBitwise : Obligations.ChooseAndMajorityWorkBitwise := by
  unfold Obligations.ChooseAndMajorityWorkBitwise
  exact fun x y z i hi => ⟨getLsbD_ch x y z hi, getLsbD_maj x y z i⟩

/-- Settles O48: bit by bit, each mixing function is the exclusive or of two rotations and a third or a shift. -/
theorem sigmaFunctionsMixBits : Obligations.SigmaFunctionsMixBits := by
  unfold Obligations.SigmaFunctionsMixBits
  intro x i hi
  have hrot : ∀ n ≤ 32, (rotr x n).getLsbD i = x.getLsbD ((i + n) % 32) := fun n hn => getLsbD_rotr x hn hi
  refine ⟨?_, ?_, ?_, ?_⟩
  · simp [bigSigma0, hrot]
  · simp [bigSigma1, hrot]
  · simp [smallSigma0, hrot, getLsbD_shr]
  · simp [smallSigma1, hrot, getLsbD_shr]

end

-- The statements of 43_one_shot.md: DIGEST, and SELF_DIGEST as DIGEST in place.
section

namespace Sys2Proof.Machine

/-! ### The one-shot commands where every check passes -/

/-- DIGEST changes host memory alone: SHA256 of the bytes at SRC, as they stood before it, at DST (R95). -/
theorem commandEffect_digest (s : State) (src dst : Addr) :
    commandEffect (.digest src dst) s =
      s.withMem (writeBytes s.mem dst.toNat (sha256 (readBytes s.mem src.toNat 32))) := by
  simp only [commandEffect]
  rw [oneBlockDigest_eq_sha256 (readBytes_length s.mem 32 src.toNat), State.withMem]

/-- SELF_DIGEST changes host memory alone: SHA256 of the bytes at SRC in their place (R96). -/
theorem commandEffect_selfDigest (s : State) (src : Addr) :
    commandEffect (.selfDigest src) s =
      s.withMem (writeBytes s.mem src.toNat (sha256 (readBytes s.mem src.toNat 32))) := by
  simp only [commandEffect]
  rw [State.withMem]

theorem exec_digest {s : State} {src dst : Addr} (hr : s.Running) (hsrc : s.InSpace src 32) (hdst : s.InSpace dst 32)
    (hread : s.Admits .read src 32) (hwrite : s.Admits .write dst 32) :
    exec (.digest src dst) s =
      .next (s.withMem (writeBytes s.mem dst.toNat (sha256 (readBytes s.mem src.toNat 32)))) := by
  have hn : commandFault (.digest src dst) s = none :=
    (digestFault_eq_none src dst s).mpr ⟨hsrc, hdst, hread, hwrite⟩
  rw [exec_effect hr hn, commandEffect_digest]

theorem exec_selfDigest {s : State} {src : Addr} (hr : s.Running) (hsrc : s.InSpace src 32)
    (hread : s.Admits .read src 32) (hwrite : s.Admits .write src 32) :
    exec (.selfDigest src) s =
      .next (s.withMem (writeBytes s.mem src.toNat (sha256 (readBytes s.mem src.toNat 32)))) := by
  have hn : commandFault (.selfDigest src) s = none := (selfDigestFault_eq_none src s).mpr ⟨hsrc, hread, hwrite⟩
  rw [exec_effect hr hn, commandEffect_selfDigest]

/-- Host memory after a digest is written: canonical still, the digest at DST, and every other byte as it was. -/
theorem writeBytes_sha256 {m : Memory} (hm : m.wf) (dst : Addr) (input : List Byte) :
    Memory.wf (writeBytes m dst.toNat (sha256 input)) ∧
    readBytes (writeBytes m dst.toNat (sha256 input)) dst.toNat 32 = sha256 input ∧
    ∀ a, Outside dst 32 a → (writeBytes m dst.toNat (sha256 input)).read a = m.read a := by
  have hback := readBytes_writeBytes m hm dst.toNat (sha256 input)
  rw [sha256_length] at hback
  exact ⟨writeBytes_wf _ m dst.toNat hm, hback, fun a ha =>
    read_writeBytes_outside _ m dst.toNat a (by rwa [sha256_length])⟩

/-! ### SELF_DIGEST is DIGEST with DST = SRC -/

/-- With DST = SRC the second range check of DIGEST repeats its first. -/
theorem commandFault_digest_self (s : State) (src : Addr) :
    commandFault (.digest src src) s = commandFault (.selfDigest src) s := by
  simp only [commandFault, digestFault, selfDigestFault]
  cases rangeFault src 32 s <;> rfl

theorem commandEffect_digest_self (s : State) (src : Addr) :
    commandEffect (.digest src src) s = commandEffect (.selfDigest src) s := by
  rw [commandEffect_digest, commandEffect_selfDigest]

/-- Only fault entry halts: an effect leaves HALTED as it was (R107, R109). -/
@[simp] theorem halted_commandEffect (i : Instr) (s : State) : (commandEffect i s).halted = s.halted :=
  halted_congr (commandEffect_status i s)

end Sys2Proof.Machine

open Sys2Proof Sys2Proof.Machine

/-- Settles O33: the input is read from memory as it was before the command, so DST may lie anywhere, over SRC too. -/
theorem digestWritesSha256 : Obligations.DigestWritesSha256 := by
  unfold Obligations.DigestWritesSha256
  intro s src dst hr hwf hsrc hdst hread hwrite
  exact ⟨_, exec_digest hr hsrc hdst hread hwrite, writeBytes_sha256 hwf dst _⟩

/-- Settles O34: the digest is written over the bytes it was computed from. -/
theorem selfDigestReplacesItsBuffer : Obligations.SelfDigestReplacesItsBuffer := by
  unfold Obligations.SelfDigestReplacesItsBuffer
  intro s src hr hwf hsrc hread hwrite
  exact ⟨_, exec_selfDigest hr hsrc hread hwrite, writeBytes_sha256 hwf src _⟩

/-- Settles O35: the two commands have the same first failing check and the same effect, so they differ only in the word
that fault entry records. -/
theorem selfDigestIsDigestInPlace : Obligations.SelfDigestIsDigestInPlace := by
  unfold Obligations.SelfDigestIsDigestInPlace
  intro s src hr
  have hfault := commandFault_digest_self s src
  cases hself : commandFault (.selfDigest src) s with
  | some f =>
    refine ⟨_, _, exec_failing hr hself, exec_failing hr (hfault.trans hself), fun hrun => ?_, fun _ => rfl⟩
    simp [State.Running] at hrun
  | none =>
    refine ⟨_, _, exec_effect hr hself, exec_effect hr (hfault.trans hself), fun _ => ?_, fun hhalted => ?_⟩
    · exact commandEffect_digest_self s src
    · simp [hr] at hhalted

end

-- The statements of 60_exceptions.md: which words are illegal, the seven faults, and the halted engine.
section

namespace Sys2Proof

/-! ### Which command words are legal -/

/-- `RSV` as a number: the bits of the word from bit 8 up (R57). -/
theorem rsvField_toNat (cw : Word) : (rsvField cw).toNat = cw.toNat / 256 := by
  rw [rsvField, BitVec.extractLsb'_toNat, Nat.shiftRight_eq_div_pow]
  exact Nat.mod_eq_of_lt (by omega)

/-- `CTX` as a number (R57). -/
theorem ctxField_toNat (cw : Word) : (ctxField cw).toNat = cw.toNat / 16 % 16 := by
  rw [ctxField, BitVec.extractLsb'_toNat, Nat.shiftRight_eq_div_pow]

/-- `OP` as a number (R57). -/
theorem opField_toNat (cw : Word) : (opField cw).toNat = cw.toNat % 16 := by
  rw [opField, BitVec.extractLsb'_toNat, Nat.shiftRight_zero]

/-- `OP` of a command is 0x1 .. 0x5, and those that name no slot, 0x4 and 0x5, have `CTX` 0 (R58, R60). -/
theorem Instr.opcode_bounds (i : Instr) :
    1 ≤ i.opcode.toNat ∧ i.opcode.toNat ≤ 5 ∧ (4 ≤ i.opcode.toNat → i.context = 0) := by
  cases i <;> simp [Instr.opcode, Instr.context]

/-- Every such pair of fields is that of some command (R58). -/
theorem exists_instr_of_fields {op ctx : BitVec 4} (hlo : 1 ≤ op.toNat) (hhi : op.toNat ≤ 5)
    (hctx : 4 ≤ op.toNat → ctx = 0) : ∃ i : Instr, i.opcode = op ∧ i.context = ctx := by
  obtain hop | hop | hop | hop | hop :
    op.toNat = 1 ∨ op.toNat = 2 ∨ op.toNat = 3 ∨ op.toNat = 4 ∨ op.toNat = 5 := by omega
  · exact ⟨.init ctx, BitVec.eq_of_toNat_eq hop.symm, rfl⟩
  · exact ⟨.append ctx 0 0, BitVec.eq_of_toNat_eq hop.symm, rfl⟩
  · exact ⟨.finish ctx 0, BitVec.eq_of_toNat_eq hop.symm, rfl⟩
  · exact ⟨.digest 0 0, BitVec.eq_of_toNat_eq hop.symm, (hctx hop.ge).symm⟩
  · exact ⟨.selfDigest 0, BitVec.eq_of_toNat_eq hop.symm, (hctx (by omega)).symm⟩

/-- A word is a command exactly when no field is out of bounds (R59, R60). -/
theorem exists_decode_eq_legal_iff (c : Command) :
    (∃ i, decode c = .legal i) ↔ rsvField c.cw = 0 ∧ 1 ≤ (opField c.cw).toNat ∧ (opField c.cw).toNat ≤ 5 ∧
      (4 ≤ (opField c.cw).toNat → ctxField c.cw = 0) := by
  constructor
  · rintro ⟨i, hi⟩
    obtain ⟨hrsv, hop, hctx⟩ := fields_of_decode hi
    rw [hop, hctx]
    exact ⟨hrsv, i.opcode_bounds⟩
  · rintro ⟨hrsv, hlo, hhi, hctx⟩
    obtain ⟨i, hop, hi⟩ := exists_instr_of_fields hlo hhi hctx
    have hcw : encodeWord i = c.cw := by rw [encodeWord_eq_commandWord, hop, hi, commandWord_fields hrsv]
    have hlegal := decode_encodeWord i c.src c.dst c.len
    rw [hcw] at hlegal
    exact ⟨_, hlegal⟩

/-- A word that is no command is ILLEGAL: decoding is total (R59). -/
theorem exists_decode_eq_illegal {c : Command} (h : ¬ ∃ i, decode c = .legal i) : ∃ why, decode c = .illegal why := by
  cases hd : decode c with
  | legal i => exact absurd ⟨i, hd⟩ h
  | illegal why => exact ⟨why, rfl⟩

end Sys2Proof

namespace Sys2Proof.Machine

/-! ### Every transaction has a next state -/

theorem performCommand_of_illegal {c : Command} {why : IllegalWord} (h : decode c = .illegal why) (s : State) :
    performCommand c s = performIllegal c.cw s := by
  simp only [performCommand, h]

/-- A halted engine performs no command, legal or not (R109). -/
theorem performCommand_halted {s : State} (c : Command) (h : s.halted = true) : performCommand c s = .next s := by
  cases hd : decode c with
  | legal i => rw [performCommand_of_decode hd, exec_halted i h]
  | illegal why => rw [performCommand_of_illegal hd, performIllegal_halted c.cw h]

theorem exec_completes (i : Instr) (s : State) : ∃ t, exec i s = .next t := by
  obtain ⟨-, h⟩ | ⟨-, f, -, h⟩ | ⟨-, -, h⟩ := exec_cases i s <;> exact ⟨_, h⟩

theorem performCommand_completes (c : Command) (s : State) : ∃ t, performCommand c s = .next t := by
  cases hh : s.halted with
  | true => exact ⟨s, performCommand_halted c hh⟩
  | false =>
    cases hd : decode c with
    | legal i => rw [performCommand_of_decode hd]; exact exec_completes i s
    | illegal why => exact ⟨_, (performCommand_of_illegal hd s).trans (performIllegal_running c.cw hh)⟩

/-- No transaction is refused or stuck (R97). -/
theorem transact_completes (x : Transaction) (s : State) : ∃ t, transact x s = .next t := by
  cases x with
  | command c => exact performCommand_completes c s
  | readStatus => exact ⟨readStatus s, rfl⟩
  | reset => exact ⟨resetEngine s, rfl⟩
  | hostRead a => exact ⟨hostRead a s, rfl⟩
  | hostWrite a b => exact ⟨hostWrite a b s, rfl⟩

/-- With none issued the engine waits (log 12). -/
theorem step_of_inbox_nil {s : State} (h : s.inbox = []) : step s = .next s := by
  simp [step, nextTransaction, h]

/-- A transaction with an address outside the address space does not exist (log 7). -/
theorem step_of_not_fits {s : State} {x : Transaction} {rest : List Transaction} (h : s.inbox = x :: rest)
    (hf : x.fits s.addrWidth = false) : step s = .fault .noSuchAddress := by
  simp [step, nextTransaction, h, hf]

/-! ### The halted engine -/

/-- `t` has the fault record and the slots of `s`: all of the engine's own state (R34). -/
def State.SameEngine (s t : State) : Prop :=
  t.status = s.status ∧ t.fcmd = s.fcmd ∧ t.faddr = s.faddr ∧ t.slots = s.slots

theorem State.SameEngine.refl (s : State) : s.SameEngine s := ⟨rfl, rfl, rfl, rfl⟩

theorem State.SameEngine.halted {s t : State} (h : s.SameEngine t) (hs : s.halted = true) : t.halted = true :=
  (halted_congr h.1).trans hs

/-- What takes effect on a halted engine, but for RESET, leaves the engine alone (R109, R110). -/
theorem transact_halted {x : Transaction} {s t : State} (hs : s.halted = true) (hx : x ≠ .reset)
    (h : transact x s = .next t) : s.SameEngine t := by
  cases x with
  | command c =>
    have hnext := (performCommand_halted c hs).symm.trans h
    cases hnext
    exact .refl s
  | reset => exact absurd rfl hx
  | readStatus => cases h; exact .refl s
  | hostRead a => cases h; exact .refl s
  | hostWrite a b => cases h; exact .refl s

theorem step_halted {s t : State} (hs : s.halted = true) (h : step s = .next t)
    (hreset : ∀ rest, s.inbox ≠ .reset :: rest) : s.SameEngine t := by
  obtain ⟨-, rfl⟩ | ⟨x, rest, hinbox, -, hx⟩ := step_next h
  · exact .refl _
  · have hne : x ≠ .reset := fun heq => hreset rest (heq ▸ hinbox)
    have hkept : State.SameEngine { s with inbox := rest } t := transact_halted hs hne hx
    exact hkept

theorem step_of_reset {s : State} {rest : List Transaction} (h : s.inbox = .reset :: rest) :
    step s = .next (resetEngine { s with inbox := rest }) :=
  step_of_inbox h rfl

/-- RESET sets every slot to UNINIT (R110, R116). -/
theorem resetEngine_phase {s : State} {sl : Slot} (h : sl ∈ (resetEngine s).slots) : sl.phase = .uninit := by
  obtain ⟨n, -, rfl⟩ := List.mem_mapIdx.mp h
  rfl

/-! ### Fault entry -/

theorem Cause.code_bounds (cause : Cause) : 1 ≤ cause.code.toNat ∧ cause.code.toNat ≤ 7 := by
  cases cause <;> decide

/-! ### The first failing check of APPEND and FINISH -/

theorem lengthFault_of_ge {len : U64} {sl : Slot} (h : 2 ^ 64 ≤ sl.tbl.toNat + 8 * len.toNat) :
    lengthFault len sl = some { cause := .lengthOverflow, faddr := 0 } :=
  if_pos h

section Active

variable {s : State} {c : BitVec 4} {sl : Slot} (hsl : s.slots[c.toNat]? = some sl) (hactive : sl.phase = .active)
include hsl hactive

/-- On an ACTIVE slot a failing length check comes before the range is looked at (R103, R106). -/
theorem commandFault_append_of_overflow {len : U64} (src : Addr) (h : 2 ^ 64 ≤ sl.tbl.toNat + 8 * len.toNat) :
    commandFault (.append c src len) s = some { cause := .lengthOverflow, faddr := 0 } := by
  rw [commandFault, appendFault, activeSlotFault_of_active hsl hactive, lengthFault_of_ge h]
  rfl

/-- APPEND of at least one byte to an ACTIVE slot that can count it fails by its range only (R73, R106). -/
theorem commandFault_append_of_range {len : U64} (src : Addr) (hlen : sl.tbl.toNat + 8 * len.toNat < 2 ^ 64)
    (hpos : 1 ≤ len.toNat) : commandFault (.append c src len) s =
      (rangeFault src len.toNat s <|> admitFault .read src len.toNat s) := by
  have hne : len ≠ 0 := by rintro rfl; simp at hpos
  rw [commandFault, appendFault, activeSlotFault_of_active hsl hactive, (lengthFault_eq_none len sl).mpr hlen,
    if_neg hne]
  rfl

/-- FINISH of an ACTIVE slot fails by its range only (R75, R106). -/
theorem commandFault_finish_of_range (dst : Addr) :
    commandFault (.finish c dst) s = (rangeFault dst 32 s <|> admitFault .write dst 32 s) := by
  rw [commandFault, finishFault, activeSlotFault_of_active hsl hactive]

end Active

/-! ### Ranges in the check order of R106 -/

/-- A range past the top of the address space fails before any check that comes later (R104, R106). -/
theorem rangeFault_orElse_of_gt {s : State} {a : Addr} {n : Nat} (h : 2 ^ s.addrWidth < a.toNat + n)
    (later : Option FaultReport) : (rangeFault a n s <|> later) = some { cause := .addressRange, faddr := a } := by
  rw [rangeFault_of_gt h]
  rfl

/-- A range in the address space leaves the outcome to the checks that come later (R106). -/
theorem rangeFault_orElse_of_inSpace {s : State} {a : Addr} {n : Nat} (h : s.InSpace a n)
    (later : Option FaultReport) : (rangeFault a n s <|> later) = later := by
  rw [(rangeFault_eq_none a n s).mpr h]
  rfl

/-- An admitted range leaves the outcome to the checks that come later (R106). -/
theorem admitFault_orElse_of_admits {s : State} {k : AccessKind} {a : Addr} {n : Nat} (h : s.Admits k a n)
    (later : Option FaultReport) : (admitFault k a n s <|> later) = later := by
  rw [(admitFault_eq_none k a n s).mpr h]
  rfl

/-- `a` is the lowest address of `[base, base+n)` that Admit refuses for `k` (R105). -/
structure State.LowestRefused (s : State) (k : AccessKind) (base : Addr) (n : Nat) (a : Addr) : Prop where
  ge_base : base.toNat ≤ a.toNat
  lt_end : a.toNat < base.toNat + n
  refused : s.admits k a.toNat = false
  below : ∀ x, base.toNat ≤ x → x < a.toNat → s.admits k x = true

theorem State.LowestRefused.admitFault_eq {s : State} {k : AccessKind} {base a : Addr} {n : Nat}
    (h : s.LowestRefused k base n a) : admitFault k base n s = some { cause := .memoryFault, faddr := a } := by
  rw [admitFault_of_refused h.ge_base h.lt_end h.refused h.below, BitVec.ofNat_toNat, BitVec.setWidth_eq]

/-- A refused byte fails before any check that comes later (R105, R106). -/
theorem State.LowestRefused.orElse {s : State} {k : AccessKind} {base a : Addr} {n : Nat}
    (h : s.LowestRefused k base n a) (later : Option FaultReport) :
    (admitFault k base n s <|> later) = some { cause := .memoryFault, faddr := a } := by
  rw [h.admitFault_eq]
  rfl

end Sys2Proof.Machine

open Sys2Proof Sys2Proof.Machine

/-- Settles O2: the bounds on the word's arithmetic fields are those under which it is a command. -/
theorem illegalWordsTakeIllegalCommandFault : Obligations.IllegalWordsTakeIllegalCommandFault := by
  unfold Obligations.IllegalWordsTakeIllegalCommandFault
  intro cmd rsv ctx op bad
  have hlegal : (∃ i, decode cmd = .legal i) ↔ ¬ bad := by
    simp only [exists_decode_eq_legal_iff, ← BitVec.toNat_inj, rsvField_toNat, opField_toNat, ctxField_toNat,
      BitVec.ofNat_eq_ofNat, BitVec.toNat_zero]
    omega
  refine ⟨fun hbad => ?_, hlegal.mpr⟩
  obtain ⟨why, hwhy⟩ := exists_decode_eq_illegal fun h => hlegal.mp h hbad
  refine ⟨⟨why, hwhy⟩, fun s rest hr hinbox hfits => ?_⟩
  calc step s = performCommand cmd { s with inbox := rest } := step_of_inbox hinbox hfits
    _ = performIllegal cmd.cw { s with inbox := rest } := performCommand_of_illegal hwhy _
    _ = .next (State.raise { s with inbox := rest } cmd.cw { cause := .illegalCommand, faddr := 0 }) :=
      performIllegal_running cmd.cw hr

/-- Settles O14: every transaction but RESET leaves a halted engine's record and slots alone. -/
theorem onlyResetLeavesTheHaltedState : Obligations.OnlyResetLeavesTheHaltedState := by
  unfold Obligations.OnlyResetLeavesTheHaltedState
  intro s t hs hstep
  refine ⟨fun hreset => ?_, fun ⟨rest, hinbox⟩ => ?_⟩
  · have hkept := step_halted hs hstep hreset
    exact ⟨hkept.halted hs, hkept⟩
  · rw [step_of_reset hinbox] at hstep
    cases hstep
    exact ⟨halted_resetEngine _, rfl, rfl, rfl, fun _ => resetEngine_phase⟩

/-- Settles O19: each range check reports its base, and the checks that come before it have passed. -/
theorem addressRangeFault : Obligations.AddressRangeFault := by
  unfold Obligations.AddressRangeFault
  intro s hr
  refine ⟨fun c sl src len hsl hactive hlen hpos hrange => ?_, fun c sl dst hsl hactive hrange => ?_,
    fun src dst hrange => ?_, fun src dst hsrc hrange => ?_, fun src hrange => ?_⟩
  · exact exec_faults hr ((commandFault_append_of_range hsl hactive src hlen hpos).trans
      (rangeFault_orElse_of_gt hrange _)) rfl
  · exact exec_faults hr ((commandFault_finish_of_range hsl hactive dst).trans (rangeFault_orElse_of_gt hrange _)) rfl
  · exact exec_faults hr (rangeFault_orElse_of_gt hrange _) rfl
  · exact exec_faults hr ((rangeFault_orElse_of_inSpace hsrc _).trans (rangeFault_orElse_of_gt hrange _)) rfl
  · exact exec_faults hr (rangeFault_orElse_of_gt hrange _) rfl

/-- Settles O20: the Admit check of the refused range reports its lowest refused address, and the checks that come
before it have passed. -/
theorem memoryFaultRecordsLowestRefusedAddress : Obligations.MemoryFaultRecordsLowestRefusedAddress := by
  unfold Obligations.MemoryFaultRecordsLowestRefusedAddress
  intro s k base a n hr hspace hge hlt hrefused hbelow
  have hlow : s.LowestRefused k base n a := ⟨hge, hlt, hrefused, hbelow⟩
  have hone : (rangeFault base n s <|> admitFault k base n s) = some { cause := .memoryFault, faddr := a } :=
    (rangeFault_orElse_of_inSpace hspace _).trans hlow.admitFault_eq
  refine ⟨?append, ?finish, ?digestRead, ?digestWrite, ?selfRead, ?selfWrite⟩
  case append =>
    rintro c sl len rfl rfl hsl hactive hlen
    exact exec_faults hr ((commandFault_append_of_range hsl hactive base hlen (by omega)).trans hone) rfl
  case finish =>
    rintro c sl rfl rfl hsl hactive
    exact exec_faults hr ((commandFault_finish_of_range hsl hactive base).trans hone) rfl
  case digestRead =>
    rintro dst rfl rfl hdst
    have hfault : commandFault (.digest base dst) s = some { cause := .memoryFault, faddr := a } := by
      rw [commandFault, digestFault, rangeFault_orElse_of_inSpace hspace, rangeFault_orElse_of_inSpace hdst,
        hlow.orElse]
    exact exec_faults hr hfault rfl
  case digestWrite =>
    rintro src rfl rfl hsrc hread
    have hfault : commandFault (.digest src base) s = some { cause := .memoryFault, faddr := a } := by
      rw [commandFault, digestFault, rangeFault_orElse_of_inSpace hsrc, rangeFault_orElse_of_inSpace hspace,
        admitFault_orElse_of_admits hread, hlow.admitFault_eq]
    exact exec_faults hr hfault rfl
  case selfRead =>
    rintro rfl rfl
    have hfault : commandFault (.selfDigest base) s = some { cause := .memoryFault, faddr := a } := by
      rw [commandFault, selfDigestFault, rangeFault_orElse_of_inSpace hspace, hlow.orElse]
    exact exec_faults hr hfault rfl
  case selfWrite =>
    rintro rfl rfl hread
    have hfault : commandFault (.selfDigest base) s = some { cause := .memoryFault, faddr := a } := by
      rw [commandFault, selfDigestFault, rangeFault_orElse_of_inSpace hspace, admitFault_orElse_of_admits hread,
        hlow.admitFault_eq]
    exact exec_faults hr hfault rfl

/-- Settles O21: a command of a running engine that ends halted ends in fault entry, since no effect halts. -/
theorem faultsArePrecise : Obligations.FaultsArePrecise := by
  unfold Obligations.FaultsArePrecise
  intro s t cmd hr hperform hhalted
  obtain ⟨f, rfl⟩ | ⟨i, rfl⟩ := performCommand_running hr hperform
  · obtain ⟨hlo, hhi⟩ := f.cause.code_bounds
    exact ⟨f.cause.code, f.faddr, hlo, hhi, rfl⟩
  · rw [halted_commandEffect, hr] at hhalted
    cases hhalted

/-- Settles O7: a transaction that exists takes effect, and every effect is a next state. -/
theorem everyTransactionCompletes : Obligations.EveryTransactionCompletes := by
  unfold Obligations.EveryTransactionCompletes
  refine ⟨fun _ => step_of_inbox_nil, fun s x rest hinbox => ⟨fun hfits => ?_, step_of_not_fits hinbox⟩⟩
  rw [step_of_inbox hinbox hfits]
  exact transact_completes x _

/-- Settles O13: a command of a halted engine is only taken from the inbox, and no transaction but RESET ends the
halt. -/
theorem haltedEnginePerformsNoCommand : Obligations.HaltedEnginePerformsNoCommand := by
  unfold Obligations.HaltedEnginePerformsNoCommand
  intro s hs
  refine ⟨fun i => exec_halted i hs, fun cmd rest hinbox hfits => ?_, fun rest hinbox => step_of_inbox hinbox rfl,
    fun t hstep hreset => (step_halted hs hstep hreset).halted hs⟩
  calc step s = performCommand cmd { s with inbox := rest } := step_of_inbox hinbox hfits
    _ = .next { s with inbox := rest } := performCommand_halted cmd hs

/-- Settles O15: the slot is the first thing each of the three commands checks. -/
theorem badContextFault : Obligations.BadContextFault := by
  unfold Obligations.BadContextFault
  intro s c src dst len hr hc
  exact ⟨exec_faults hr (contextFault_of_ge hc) rfl, exec_faults hr (activeSlotFault_of_ge hc _) rfl,
    exec_faults hr (activeSlotFault_of_ge hc _) rfl⟩

/-- Settles O16: the phase is checked before LEN and any range. -/
theorem contextUninitFault : Obligations.ContextUninitFault := by
  unfold Obligations.ContextUninitFault
  intro s c sl src dst len hr hsl hphase
  exact ⟨exec_faults hr (activeSlotFault_of_uninit hsl hphase _) rfl,
    exec_faults hr (activeSlotFault_of_uninit hsl hphase _) rfl⟩

/-- Settles O17: the phase is checked before LEN and any range. -/
theorem contextConsumedFault : Obligations.ContextConsumedFault := by
  unfold Obligations.ContextConsumedFault
  intro s c sl src dst len hr hsl hphase
  exact ⟨exec_faults hr (activeSlotFault_of_consumed hsl hphase _) rfl,
    exec_faults hr (activeSlotFault_of_consumed hsl hphase _) rfl⟩

/-- Settles O18: on an ACTIVE slot the length is checked first. -/
theorem lengthOverflowFault : Obligations.LengthOverflowFault := by
  unfold Obligations.LengthOverflowFault
  intro s c sl src len hr hsl hactive hoverflow
  exact exec_faults hr (commandFault_append_of_overflow hsl hactive src hoverflow) rfl

end

-- The statements of 70_reset_and_hazards.md: the state right after reset, and what RESET writes and leaves alone.
section

namespace Sys2Proof.Machine

/-! ### The slots after reset -/

/-- The machine has a slot for each of its NUM_CONTEXTS contexts (R16). -/
theorem length_resetOf_slots (c : Config) : (State.resetOf c).slots.length = c.numContexts := by
  rw [resetOf_slots, List.length_replicate]

/-- Every slot is UNINIT right after reset (R116). -/
theorem resetOf_phase {c : Config} {sl : Slot} (h : sl ∈ (State.resetOf c).slots) : sl.phase = .uninit :=
  congrArg Slot.phase (eq_reset_of_mem_resetOf_slots h)

end Sys2Proof.Machine

open Sys2Proof Sys2Proof.Machine

/-- Settles O11: the record is zero by definition, and every slot is the reset slot. -/
theorem resetStateHoldsTheSpecsValues : Obligations.ResetStateHoldsTheSpecsValues := by
  unfold Obligations.ResetStateHoldsTheSpecsValues
  intro cfg
  exact ⟨resetOf_status cfg, resetOf_fcmd cfg, resetOf_faddr cfg, length_resetOf_slots cfg, fun _ => resetOf_phase⟩

/-- Settles O12: RESET takes effect in every state, and what it leaves alone is the state with the transaction taken
from the inbox. -/
theorem resetClearsRecordAndPhases : Obligations.ResetClearsRecordAndPhases := by
  unfold Obligations.ResetClearsRecordAndPhases
  intro s rest hinbox
  obtain ⟨hwidth, hrefused, hslots⟩ := resetEngine_sameParameters { s with inbox := rest }
  exact ⟨_, step_of_reset hinbox, resetEngine_status _, resetEngine_fcmd _, resetEngine_faddr _, hslots,
    fun _ => resetEngine_phase, resetEngine_mem _, resetEngine_inbox _, resetEngine_replies _, hwidth, hrefused⟩

end
